-- ==== Sys2Proof/Word.lean ====
section
/-! DEFINITION. The word of the machine and the register number (spec 00_scope R6, R8; 10_state R21, R23). -/

namespace Sys2Proof

/-- Every register, the PC, every memory word and every address: a 16-bit unsigned value whose
arithmetic wraps modulo 65536 (00_scope R8). -/
abbrev Word := BitVec 16

/-- The number of a general register, 0 to 7. It only ever comes from a 3-bit field, so there is no
invalid one (10_state R23). -/
abbrev RegIdx := Fin 8

end Sys2Proof
end

