-- ==== Sys2Proof/Syntax.lean ====
section
/-! DEFINITION. The instructions: one constructor per row of spec/opcode_table.json, 19 in all
(30_encoding R62, R63). Signed immediates and offsets stand sign-extended to 16 bits, as the rules
add them (30_encoding R76); bits that no field names do not appear (30_encoding R79). -/

namespace Sys2Proof

/-- An instruction of the machine. -/
inductive Instr where
  /-- BR: branch if the flag is one of those named by `n`, `z`, `p` (42_control R110). -/
  | br (n z p : Bool) (off : Word)
  /-- ADD, register form (41_alu R102). -/
  | addReg (dr sr1 sr2 : RegIdx)
  /-- ADD, immediate form (41_alu R103). -/
  | addImm (dr sr1 : RegIdx) (imm : Word)
  /-- LD: load, PC-relative (43_load R120). -/
  | ld (dr : RegIdx) (off : Word)
  /-- ST: store, PC-relative (44_store R130). -/
  | st (sr : RegIdx) (off : Word)
  /-- JSRR: subroutine call through a register (42_control R113). -/
  | jsrr (base : RegIdx)
  /-- JSR: subroutine call, PC-relative (42_control R112). -/
  | jsr (off : Word)
  /-- AND, register form (41_alu R104). -/
  | andReg (dr sr1 sr2 : RegIdx)
  /-- AND, immediate form (41_alu R105). -/
  | andImm (dr sr1 : RegIdx) (imm : Word)
  /-- LDR: load, base plus offset (43_load R122). -/
  | ldr (dr base : RegIdx) (off : Word)
  /-- STR: store, base plus offset (44_store R132). -/
  | str (sr base : RegIdx) (off : Word)
  /-- RTI (45_system R140). -/
  | rti
  /-- NOT (41_alu R106). -/
  | notReg (dr sr : RegIdx)
  /-- LDI: load indirect (43_load R121). -/
  | ldi (dr : RegIdx) (off : Word)
  /-- STI: store indirect (44_store R131). -/
  | sti (sr : RegIdx) (off : Word)
  /-- JMP: jump through a register (42_control R111). -/
  | jmp (base : RegIdx)
  /-- RES: the reserved opcode 13 (45_system R142). -/
  | res
  /-- LEA: load effective address (43_load R123). -/
  | lea (dr : RegIdx) (off : Word)
  /-- TRAP with its 8-bit vector, unsigned (45_system R141). -/
  | trap (vector : BitVec 8)
  deriving DecidableEq, Repr

end Sys2Proof
end

