-- ==== Sys2Proof/WellFormed.lean ====
section
/-! DEFINITION. Which instructions an encoding exists for: a signed operand must lie in the range of its
field (00_scope R9, the table of `sext_16` ranges). -/

namespace Sys2Proof

/-- `v`, read as a signed number, is the sign extension of a `b`-bit field:
it lies in -2^(b-1) .. 2^(b-1) - 1 (00_scope R9). -/
def fitsSigned (b : Nat) (v : Word) : Bool :=
  decide (-(2 : Int) ^ (b - 1) ≤ v.toInt) && decide (v.toInt < (2 : Int) ^ (b - 1))

/-- An instruction some word encodes. Register numbers and the trap vector are right by their types. -/
def Instr.wf : Instr → Bool
  | .br _ _ _ off => fitsSigned 9 off
  | .addReg _ _ _ => true
  | .addImm _ _ imm => fitsSigned 5 imm
  | .ld _ off => fitsSigned 9 off
  | .st _ off => fitsSigned 9 off
  | .jsrr _ => true
  | .jsr off => fitsSigned 11 off
  | .andReg _ _ _ => true
  | .andImm _ _ imm => fitsSigned 5 imm
  | .ldr _ _ off => fitsSigned 6 off
  | .str _ _ off => fitsSigned 6 off
  | .rti => true
  | .notReg _ _ => true
  | .ldi _ off => fitsSigned 9 off
  | .sti _ off => fitsSigned 9 off
  | .jmp _ => true
  | .res => true
  | .lea _ off => fitsSigned 9 off
  | .trap _ => true

end Sys2Proof
end

