-- ==== Sys2Proof/Decode.lean ====
section
/-! DEFINITION. Decoding and encoding (spec 30_encoding). Every 16-bit word is exactly one of the 19 forms
(R79), so the decoder refuses nothing: the one illegal opcode, RES, is a form that faults when it runs
(R78). -/

namespace Sys2Proof

/-- `w[hi:lo]`: bits `hi` down to `lo`, 0 the least significant (00_scope R7). -/
def bits (w : Word) (hi lo : Nat) : BitVec (hi - lo + 1) := w.extractLsb hi lo

/-- `w[i]`: one bit (00_scope R7). -/
def bit (w : Word) (i : Nat) : Bool := w.getLsbD i

/-- `sext_16(f)`: a field widened to 16 bits by its own top bit (00_scope R9). -/
def sext16 {b : Nat} (f : BitVec b) : Word := f.signExtend 16

/-- A 3-bit register field as a register number (30_encoding R75). -/
def regOf (f : BitVec 3) : RegIdx := f.toFin

/-- The identifiers the decoder maps the top four bits to (30_encoding R61, R62). -/
inductive Opcode where
  | br | add | ld | st | jsr | and | ldr | str | rti | not | ldi | sti | jmp | res | lea | trap
  deriving DecidableEq, Repr

/-- The opcode map (30_encoding R62). All sixteen values are assigned. -/
def opcodeOf (f : BitVec 4) : Opcode :=
  match f.toNat with
  | 0 => .br
  | 1 => .add
  | 2 => .ld
  | 3 => .st
  | 4 => .jsr
  | 5 => .and
  | 6 => .ldr
  | 7 => .str
  | 8 => .rti
  | 9 => .not
  | 10 => .ldi
  | 11 => .sti
  | 12 => .jmp
  | 13 => .res
  | 14 => .lea
  | _ => .trap

/-- The decoder: a pure function of the word, first on bits 15:12 (30_encoding R61), then on bit 5 for
ADD and AND and on bit 11 for opcode 4 (R63). Fields as in R64 to R77. -/
def decode (w : Word) : Instr :=
  match opcodeOf (bits w 15 12) with
  | .br => .br (bit w 11) (bit w 10) (bit w 9) (sext16 (bits w 8 0))
  | .add =>
    if bit w 5 then .addImm (regOf (bits w 11 9)) (regOf (bits w 8 6)) (sext16 (bits w 4 0))
    else .addReg (regOf (bits w 11 9)) (regOf (bits w 8 6)) (regOf (bits w 2 0))
  | .ld => .ld (regOf (bits w 11 9)) (sext16 (bits w 8 0))
  | .st => .st (regOf (bits w 11 9)) (sext16 (bits w 8 0))
  | .jsr =>
    if bit w 11 then .jsr (sext16 (bits w 10 0))
    else .jsrr (regOf (bits w 8 6))
  | .and =>
    if bit w 5 then .andImm (regOf (bits w 11 9)) (regOf (bits w 8 6)) (sext16 (bits w 4 0))
    else .andReg (regOf (bits w 11 9)) (regOf (bits w 8 6)) (regOf (bits w 2 0))
  | .ldr => .ldr (regOf (bits w 11 9)) (regOf (bits w 8 6)) (sext16 (bits w 5 0))
  | .str => .str (regOf (bits w 11 9)) (regOf (bits w 8 6)) (sext16 (bits w 5 0))
  | .rti => .rti
  | .not => .notReg (regOf (bits w 11 9)) (regOf (bits w 8 6))
  | .ldi => .ldi (regOf (bits w 11 9)) (sext16 (bits w 8 0))
  | .sti => .sti (regOf (bits w 11 9)) (sext16 (bits w 8 0))
  | .jmp => .jmp (regOf (bits w 8 6))
  | .res => .res
  | .lea => .lea (regOf (bits w 11 9)) (sext16 (bits w 8 0))
  | .trap => .trap (bits w 7 0)

/-! ### The encoder, from the same tables -/

/-- A register number as its 3-bit field (30_encoding R75). -/
def regBits (r : RegIdx) : BitVec 3 := BitVec.ofFin r

/-- The low `b` bits of a signed operand: the field that sign-extends to it (30_encoding R76). -/
def field (b : Nat) (v : Word) : BitVec b := v.setWidth b

/-- The word of an instruction, field by field from bit 15 down (30_encoding R64 to R74). Ignored bits
get the customary filler: 0, but ones in NOT (30_encoding R84). PRESUMED (log 17): the filler is general
knowledge; it has no effect (R79). -/
def encode : Instr → Word
  | .br n z p off => 0x0#4 ++ BitVec.ofBool n ++ BitVec.ofBool z ++ BitVec.ofBool p ++ field 9 off
  | .addReg dr sr1 sr2 => 0x1#4 ++ regBits dr ++ regBits sr1 ++ 0b0#1 ++ 0b00#2 ++ regBits sr2
  | .addImm dr sr1 imm => 0x1#4 ++ regBits dr ++ regBits sr1 ++ 0b1#1 ++ field 5 imm
  | .ld dr off => 0x2#4 ++ regBits dr ++ field 9 off
  | .st sr off => 0x3#4 ++ regBits sr ++ field 9 off
  | .jsrr base => 0x4#4 ++ 0b0#1 ++ 0b00#2 ++ regBits base ++ 0b000000#6
  | .jsr off => 0x4#4 ++ 0b1#1 ++ field 11 off
  | .andReg dr sr1 sr2 => 0x5#4 ++ regBits dr ++ regBits sr1 ++ 0b0#1 ++ 0b00#2 ++ regBits sr2
  | .andImm dr sr1 imm => 0x5#4 ++ regBits dr ++ regBits sr1 ++ 0b1#1 ++ field 5 imm
  | .ldr dr base off => 0x6#4 ++ regBits dr ++ regBits base ++ field 6 off
  | .str sr base off => 0x7#4 ++ regBits sr ++ regBits base ++ field 6 off
  | .rti => 0x8#4 ++ 0#12
  | .notReg dr sr => 0x9#4 ++ regBits dr ++ regBits sr ++ 0b111111#6
  | .ldi dr off => 0xA#4 ++ regBits dr ++ field 9 off
  | .sti sr off => 0xB#4 ++ regBits sr ++ field 9 off
  | .jmp base => 0xC#4 ++ 0b000#3 ++ regBits base ++ 0b000000#6
  | .res => 0xD#4 ++ 0#12
  | .lea dr off => 0xE#4 ++ regBits dr ++ field 9 off
  | .trap vector => 0xF#4 ++ 0x0#4 ++ vector

/-! ### The opcode table -/

/-- A row of spec/opcode_table.json: a word `w` is the row's instruction exactly when
`w &&& mask = pattern` (INDEX.md, conventions of the table). `ignored` holds the bits no field names. -/
structure Row where
  mnemonic : String
  pattern : Word
  mask : Word
  ignored : Word
  deriving DecidableEq, Repr

/-- The 19 rows, in the table's order, with the bits 30_encoding R79 lists as ignored. -/
def opcodeTable : List Row :=
  [⟨"BR", 0x0000, 0xF000, 0x0000⟩,
   ⟨"ADD__register", 0x1000, 0xF020, 0x0018⟩,
   ⟨"ADD__immediate", 0x1020, 0xF020, 0x0000⟩,
   ⟨"LD", 0x2000, 0xF000, 0x0000⟩,
   ⟨"ST", 0x3000, 0xF000, 0x0000⟩,
   ⟨"JSRR", 0x4000, 0xF800, 0x063F⟩,
   ⟨"JSR", 0x4800, 0xF800, 0x0000⟩,
   ⟨"AND__register", 0x5000, 0xF020, 0x0018⟩,
   ⟨"AND__immediate", 0x5020, 0xF020, 0x0000⟩,
   ⟨"LDR", 0x6000, 0xF000, 0x0000⟩,
   ⟨"STR", 0x7000, 0xF000, 0x0000⟩,
   ⟨"RTI", 0x8000, 0xF000, 0x0FFF⟩,
   ⟨"NOT", 0x9000, 0xF000, 0x003F⟩,
   ⟨"LDI", 0xA000, 0xF000, 0x0000⟩,
   ⟨"STI", 0xB000, 0xF000, 0x0000⟩,
   ⟨"JMP", 0xC000, 0xF000, 0x0E3F⟩,
   ⟨"RES", 0xD000, 0xF000, 0x0FFF⟩,
   ⟨"LEA", 0xE000, 0xF000, 0x0000⟩,
   ⟨"TRAP", 0xF000, 0xF000, 0x0F00⟩]

/-- `w` is an instruction of the row. -/
def Row.matches (row : Row) (w : Word) : Bool := (w &&& row.mask) == row.pattern

/-- The mnemonic of an instruction's row in the opcode table. -/
def Instr.mnemonic : Instr → String
  | .br _ _ _ _ => "BR"
  | .addReg _ _ _ => "ADD__register"
  | .addImm _ _ _ => "ADD__immediate"
  | .ld _ _ => "LD"
  | .st _ _ => "ST"
  | .jsrr _ => "JSRR"
  | .jsr _ => "JSR"
  | .andReg _ _ _ => "AND__register"
  | .andImm _ _ _ => "AND__immediate"
  | .ldr _ _ _ => "LDR"
  | .str _ _ _ => "STR"
  | .rti => "RTI"
  | .notReg _ _ => "NOT"
  | .ldi _ _ => "LDI"
  | .sti _ _ => "STI"
  | .jmp _ => "JMP"
  | .res => "RES"
  | .lea _ _ => "LEA"
  | .trap _ => "TRAP"

/-! ### Words as the opcode table numbers them -/

/-- The word of an instruction given as `nbits` bits numbered as the opcode table numbers them: one
16-bit word, bit 0 the least significant, every bit above `nbits` zero. -/
def tableWord (nbits w : Nat) : Word := BitVec.ofNat 16 (w % 2 ^ nbits)

/-- What the decoder reads from a word of the opcode table; it refuses none. -/
def decodeTableWord (nbits w : Nat) : Option Instr := some (decode (tableWord nbits w))

end Sys2Proof
end

