-- ==== Sys2Proof/Config.lean ====
section
/-! DEFINITION. What the spec fixes for every instance of the machine (00_scope R6), and what the model
chose for the parameters the spec leaves open, at reset only (log 5). The free value of the namespace,
`Config.freeAnswer`, needs the types of the state and stands in Machine/State.lean (log 4). -/

namespace Sys2Proof.Config

/-- RESET_PC: the PC after CREATE; a fixed value, not read from memory (10_state R39). -/
def resetPc : Word := 0x3000

/-- LINK: the register JSR, JSRR and TRAP write (10_state R24). -/
def link : RegIdx := 7

/-- The value of a memory word nothing has written since CREATE (10_state R36, R39). -/
def emptyWord : Word := 0

/-- TRAP_PRESENT in `State.reset`. DESIGN CHOICE (log 5): the spec leaves it open and recommends
`true` for programs that end with a halting TRAP (92_eei_decisions D9). -/
def resetTrapPresent : Bool := true

/-- SUP_PRESENT in `State.reset`. DESIGN CHOICE (log 5): the spec leaves it open and recommends
`false` (92_eei_decisions D9, D10). -/
def resetSupPresent : Bool := false

end Sys2Proof.Config
end

