-- ==== Sys2Proof/Machine/State.lean ====
section
/-! DEFINITION. The state of the machine as plain data (spec 10_state), its value at reset, and the reasons a
step can stop. -/

namespace Sys2Proof.Machine

/-- COND: exactly one of four values (10_state R29; R31 leaves the storage to the model, log 16). -/
inductive Cond where
  /-- `U`, from CREATE until the first flag-affecting instruction. -/
  | uninitialized
  | positive
  | zero
  | negative
  deriving DecidableEq, Repr

/-- MEM: the words that are not 0, by address (10_state R36). Addresses rise strictly and no entry is 0,
so equal memories are equal lists. The unit is the 16-bit word: the machine has no bytes (20_memory R12,
R43; log 1). -/
abbrev Memory := List (Nat × Word)

/-- What the ACCESS interface reaches: any of R0 to R7, the PC, COND, any memory word
(70_reset_and_hazards R184). -/
inductive Place where
  | reg (r : RegIdx)
  | pc
  | cond
  | mem (a : Word)
  deriving DecidableEq, Repr

/-- What a peek of a place shows: a word, or, for COND, one of its four values. -/
inductive Shown where
  | word (v : Word)
  | flag (c : Cond)
  deriving DecidableEq, Repr

/-- The architectural state as one value (10_state R20): what a collaborator receives
(60_exceptions R162) and what ACCESS shows. -/
structure Snapshot where
  regs : Vector Word 8
  pc : Word
  cond : Cond
  mem : Memory
  deriving DecidableEq, Repr

/-- A write through the ACCESS interface, by the host between cycles or by a collaborator during its
dispatch (70_reset_and_hazards R184). A poke of COND can only store one of its four values. -/
inductive Poke where
  | reg (r : RegIdx) (v : Word)
  | pc (v : Word)
  | cond (c : Cond)
  | mem (a v : Word)
  deriving DecidableEq, Repr

/-- What a dispatched collaborator does: it may write any of R0 to R7, PC, COND and MEM, in the order of
the list, and then signals `Complete` or `Halt`, or never signals (60_exceptions R162, R165). -/
inductive Answer where
  | complete (changes : List Poke)
  | halt (changes : List Poke)
  | silent
  deriving DecidableEq, Repr, Inhabited

/-- What a collaborator is called for: TRAP with its vector, or RTI (00_scope R6). -/
inductive Call where
  | trap (vector : BitVec 8)
  | rti
  deriving DecidableEq, Repr

end Sys2Proof.Machine

namespace Sys2Proof.Config

open Machine

/-- An unknown collaborator: what number `who` answers to a call, given the machine it receives, at the
environment's choice number `choice`. The free value for the open parameters TrapCollab and SupCollab (00_scope R6,
60_exceptions R162; log 4): it has no body, so a claim about it holds of every relation from call, state and
environment choice to an answer. -/
opaque freeAnswer (who choice : Nat) (call : Call) (machine : Snapshot) : Answer

end Sys2Proof.Config

namespace Sys2Proof.Machine

/-- A row of a collaborator written out as a table: the call it is for, what the machine must show for it to apply, and
its answer. -/
structure Case where
  call : Call
  sees : List (Place × Shown)
  answer : Answer
  deriving DecidableEq, Repr

/-- A collaborator at one dispatch: a relation from the call and the machine it receives to an answer
(60_exceptions R162), either written out as a table, whose first row that applies counts, or unknown. -/
inductive Turn where
  | table (cases : List Case) (otherwise : Answer)
  | free (who : Nat)
  deriving DecidableEq, Repr

/-- A collaborator over time: at its dispatches it acts as `turns` say, in order, and then as `rest` says for ever. The
number of its dispatches so far is the environment's choice, which a `free` turn may answer differently to each time
and for ever. The MODEL's own data, the free value for an open parameter of the spec (log 4). -/
structure Feed where
  turns : List Turn
  rest : Turn
  dispatched : Nat
  deriving DecidableEq, Repr

/-- The state of the machine: the architectural state (10_state R20), the configuration of the instance
(10_state R37), and the collaborators. -/
structure State where
  /-- R0 to R7 (10_state R21). -/
  regs : Vector Word 8
  /-- The program counter (10_state R25). -/
  pc : Word
  /-- The condition flag (10_state R29). -/
  cond : Cond
  /-- The 65536 words of memory (10_state R36). -/
  mem : Memory
  /-- TRAP_PRESENT: a trap collaborator is installed (00_scope R6). No instruction changes it. -/
  trapPresent : Bool
  /-- SUP_PRESENT: a supervisory collaborator is installed (00_scope R6). No instruction changes it. -/
  supPresent : Bool
  /-- TrapCollab, from here on (log 4). -/
  trapFeed : Feed
  /-- SupCollab, from here on (log 4). -/
  supFeed : Feed
  deriving DecidableEq, Repr

/-- The machine right after CREATE: registers 0, PC 0x3000, flag Uninitialized, memory 0 (10_state R39).
The last four fields are not state of the spec: DESIGN CHOICE, log 5 and log 6. -/
def State.reset : State where
  regs := Vector.replicate 8 0
  pc := Config.resetPc
  cond := .uninitialized
  mem := []
  trapPresent := Config.resetTrapPresent
  supPresent := Config.resetSupPresent
  trapFeed := { turns := [], rest := .table [] (.complete []), dispatched := 0 }
  supFeed := { turns := [], rest := .table [] (.complete []), dispatched := 0 }

/-- The outcomes of a cycle that are not `Continue`. The first three carry the state the cycle leaves, from
which a further STEP would run like any other (40_cycle R95, R96, R97; log 3). -/
inductive Fault where
  /-- `Fault(IllegalOpcode)`, raised by RES, always (45_system R142). Safe: the spec's own fatal fault. -/
  | illegalOpcode (left : State)
  /-- `Fault(PrivilegedInstruction)`, raised by RTI and TRAP when the collaborator they need is not
  installed (60_exceptions R152). Safe: the spec's own fatal fault. -/
  | privilegedInstruction (left : State)
  /-- `Halt`, not an error: a dispatched collaborator signalled halt, so the run loop stops
  (40_cycle R93, R96). Raised by TRAP and RTI. Safe: the spec's own outcome. -/
  | halted (left : State)
  /-- A dispatched collaborator never signals: the cycle has no outcome and no next state
  (60_exceptions R165). Raised by TRAP and RTI. Safe: a stuck state, as the spec asks. -/
  | collaboratorSilent
  deriving DecidableEq, Repr

/-- Why the model has no meaning for an instruction. -/
inductive Refusal where
  /-- The arm of `exec` has no meaning yet. No arm of this model says so. Safe: the model stops. -/
  | notModelled (mnemonic : String)
  deriving DecidableEq, Repr

/-- The outcome of a cycle. -/
abbrev Result := Host.Outcome State Fault Refusal

end Sys2Proof.Machine
end

