-- ==== Sys2Proof/Machine/Ops.lean ====
section
/-! DEFINITION. The named operations every meaning is made of: memory, registers, PC, fetch, pokes, faults and
the dispatch to a collaborator. -/

namespace Sys2Proof.Machine

/-! ### Memory (20_memory) -/

/-- The canonical form: addresses strictly rising, all below 65536, no word equal to what an unlisted
address reads as. -/
def Memory.wf (m : Memory) : Bool :=
  decide (m.Pairwise (fun c d => c.1 < d.1)) && m.all (fun c => decide (c.1 < 65536) && c.2 != Config.emptyWord)

/-- The word stored under a key; an unlisted address reads as it was created, 0 (10_state R36, R39). -/
def Memory.get : Memory → Nat → Word
  | [], _ => Config.emptyWord
  | (k, v) :: m, a => if k = a then v else Memory.get m a

/-- `MemRead(addr, 16)`: total, never fails, changes nothing (20_memory R41). -/
def Memory.read (m : Memory) (a : Word) : Word := Memory.get m a.toNat

/-- The memory without any entry for `a`. -/
def Memory.erase (m : Memory) (a : Nat) : Memory := m.filter (fun c => c.1 != a)

/-- The memory with an entry for `a` put in before the first higher address. -/
def Memory.insert : Memory → Nat → Word → Memory
  | [], a, v => [(a, v)]
  | (k, w) :: m, a, v => if a < k then (a, v) :: (k, w) :: m else (k, w) :: Memory.insert m a v

/-- `MemWrite(addr, 16, v)`: stores the word, never fails, changes no other word (20_memory R42). -/
def Memory.write (m : Memory) (a v : Word) : Memory :=
  if v = Config.emptyWord then Memory.erase m a.toNat
  else Memory.insert (Memory.erase m a.toNat) a.toNat v

/-! ### Registers, PC, memory of the state -/

/-- `x[r]`: reading a register has no side effect (10_state R22). -/
def State.reg (s : State) (r : RegIdx) : Word := s.regs[r]

/-- `x[r] <- v`: no register is hardwired (10_state R22). -/
def State.setReg (s : State) (r : RegIdx) (v : Word) : State := { s with regs := s.regs.set r v }

/-- `pc <- v`: every 16-bit value is a legal PC (10_state R25). -/
def State.setPc (s : State) (v : Word) : State := { s with pc := v }

/-- COND takes a value. -/
def State.setCond (s : State) (c : Cond) : State := { s with cond := c }

/-- `MemRead` on the state's memory. -/
def State.read (s : State) (a : Word) : Word := Memory.read s.mem a

/-- `MemWrite` on the state's memory. -/
def State.write (s : State) (a v : Word) : State := { s with mem := Memory.write s.mem a v }

/-! ### The common part of a cycle (40_cycle) -/

/-- Step 1 of a cycle: the word at the PC, an ordinary memory read (40_cycle R90; 20_memory R54). -/
def State.fetch (s : State) : Word := s.read s.pc

/-- Step 2 of a cycle: the PC moves past the word, wrapping (40_cycle R90; 10_state R27). -/
def State.advance (s : State) : State := s.setPc (s.pc + 1)

/-- The link register receives the PC, which is already incremented: the return address of JSR, JSRR and
TRAP (10_state R24; 40_cycle R91). -/
def State.linkPc (s : State) : State := s.setReg Config.link s.pc

/-! ### Faults (60_exceptions R150 to R157) -/

/-- `raise reason`: the cycle ends with `Fault(reason)`. A fault transfers control nowhere and saves
nothing; what stands in the state, the incremented PC among it, is what it leaves (60_exceptions R156,
40_cycle R95). There is no return from a fault (R157). -/
def raise (reason : State → Fault) (s : State) : Result := .fault (reason s)

/-! ### Peeks and pokes (70_reset_and_hazards R184) -/

/-- The architectural state of the machine (10_state R20). -/
def State.snapshot (s : State) : Snapshot := { regs := s.regs, pc := s.pc, cond := s.cond, mem := s.mem }

/-- A peek: what stands in a place. -/
def Snapshot.peek (m : Snapshot) : Place → Shown
  | .reg r => .word m.regs[r]
  | .pc => .word m.pc
  | .cond => .flag m.cond
  | .mem a => .word (Memory.read m.mem a)

/-- A peek of the machine: it answers a value and leaves the state alone, so it has no side effect. -/
def State.peek (s : State) (p : Place) : Shown := s.snapshot.peek p

/-- One poke. A poke of a register does not update COND (70_reset_and_hazards R184). -/
def State.poke (s : State) : Poke → State
  | .reg r v => s.setReg r v
  | .pc v => s.setPc v
  | .cond c => s.setCond c
  | .mem a v => s.write a v

/-- Pokes, in order. -/
def State.pokes (s : State) : List Poke → State
  | [] => s
  | p :: ps => (s.poke p).pokes ps

/-! ### Collaborators (60_exceptions R161 to R166) -/

/-- A row of a table applies: it is for this call, and the machine shows what it asks for. -/
def Case.applies (k : Case) (c : Call) (m : Snapshot) : Bool :=
  k.call == c && k.sees.all (fun x => m.peek x.1 == x.2)

/-- What a collaborator answers to a call, given the machine and the environment's choice (60_exceptions R162). -/
def Turn.answer (t : Turn) (choice : Nat) (c : Call) (m : Snapshot) : Answer :=
  match t with
  | .table cases otherwise => ((cases.find? (fun k => k.applies c m)).map Case.answer).getD otherwise
  | .free who => Config.freeAnswer who choice c m

/-- The answer at the coming dispatch. -/
def Feed.answer (f : Feed) (c : Call) (m : Snapshot) : Answer := (f.turns.headD f.rest).answer f.dispatched c m

/-- The collaborator after a dispatch. -/
def Feed.next (f : Feed) : Feed := { f with turns := f.turns.tail, dispatched := f.dispatched + 1 }

/-- The end of a dispatch: `Continue` on `Complete`, `Halt` on `Halt`, with the state the collaborator
leaves; no outcome if it never signals. The core restores nothing (60_exceptions R162, R165, R166). -/
def finish (a : Answer) (s : State) : Result :=
  match a with
  | .complete changes => .next (s.pokes changes)
  | .halt changes => .fault (.halted (s.pokes changes))
  | .silent => .fault .collaboratorSilent

/-- `dispatch TrapCollab(vector)`: the machine, R7 already holding the return address, is handed to the trap
collaborator with the vector (60_exceptions R161, R162). -/
def dispatchTrap (vector : BitVec 8) (s : State) : Result :=
  finish (s.trapFeed.answer (.trap vector) s.snapshot) { s with trapFeed := s.trapFeed.next }

/-- `dispatch SupCollab`: the machine is handed to the supervisory collaborator (45_system R140). -/
def dispatchSup (s : State) : Result :=
  finish (s.supFeed.answer .rti s.snapshot) { s with supFeed := s.supFeed.next }

end Sys2Proof.Machine
end

