-- ==== Sys2Proof/Machine/Flags.lean ====
section
/-! DEFINITION. The condition flag: how an instruction sets it and how BR reads it (10_state R30 to R34). -/

namespace Sys2Proof.Machine

/-- `cc(v)`: Zero if the value is 0, Negative if bit 15 is set, else Positive (10_state R33). -/
def cc (v : Word) : Cond :=
  if v = 0 then .zero else if v.msb then .negative else .positive

/-- `nzp(cond)`: the bit value BR tests: N is bit 2, Z bit 1, P bit 0, Uninitialized no bit (10_state R30). -/
def nzp : Cond → BitVec 3
  | .negative => 0b100
  | .zero => 0b010
  | .positive => 0b001
  | .uninitialized => 0b000

/-- The mask of a BR: `n`, `z`, `p` are bits 2, 1, 0 (30_encoding R67). -/
def condMask (n z p : Bool) : BitVec 3 := BitVec.ofBool n ++ BitVec.ofBool z ++ BitVec.ofBool p

/-- BR is taken if mask and bit value of the flag have a bit in common (42_control R110). -/
def branchTaken (n z p : Bool) (c : Cond) : Bool := (condMask n z p &&& nzp c) != 0

/-- `update_flags(r)`: COND from the value just written to `r` (10_state R33). -/
def State.updateFlags (s : State) (r : RegIdx) : State := s.setCond (cc (s.reg r))

/-- The end of the seven flag-affecting instructions: the destination is written, then the flag is updated
from it (10_state R32, R33). -/
def State.writeResult (s : State) (dr : RegIdx) (v : Word) : State := (s.setReg dr v).updateFlags dr

end Sys2Proof.Machine
end

