-- ==== Sys2Proof/Machine/Alu.lean ====
section
/-! DEFINITION. The operate instructions (spec 41_alu). Sources are read before the destination is written. -/

namespace Sys2Proof.Machine

/-- ADD, register form: `x[DR] <- x[SR1] + x[SR2]` modulo 65536, then the flag (41_alu R102). -/
def execAddReg (dr sr1 sr2 : RegIdx) (s : State) : Result :=
  .next (s.writeResult dr (s.reg sr1 + s.reg sr2))

/-- ADD, immediate form: `x[DR] <- x[SR1] + imm` modulo 65536, then the flag (41_alu R103). -/
def execAddImm (dr sr1 : RegIdx) (imm : Word) (s : State) : Result :=
  .next (s.writeResult dr (s.reg sr1 + imm))

/-- AND, register form (41_alu R104). -/
def execAndReg (dr sr1 sr2 : RegIdx) (s : State) : Result :=
  .next (s.writeResult dr (s.reg sr1 &&& s.reg sr2))

/-- AND, immediate form; the immediate is sign-extended as for ADD (41_alu R105). -/
def execAndImm (dr sr1 : RegIdx) (imm : Word) (s : State) : Result :=
  .next (s.writeResult dr (s.reg sr1 &&& imm))

/-- NOT: the 16-bit complement (41_alu R106). -/
def execNotReg (dr sr : RegIdx) (s : State) : Result :=
  .next (s.writeResult dr (~~~ s.reg sr))

end Sys2Proof.Machine
end

