-- ==== Sys2Proof/Machine/Operands.lean ====
section
/-! DEFINITION. The operand address computations (43_load R124), all modulo 65536 (20_memory R48). In each,
`s.pc` is already the address of the instruction plus 1 (40_cycle R91), and `off` is sign-extended. No
mode modifies a base register. -/

namespace Sys2Proof.Machine

/-- PC-relative: `pc + off` (LD, ST, LEA; also the targets of BR and JSR). -/
def pcRelative (s : State) (off : Word) : Word := s.pc + off

/-- Indirect: the word at `pc + off` is the address (LDI, STI). -/
def indirect (s : State) (off : Word) : Word := s.read (pcRelative s off)

/-- Base plus offset: `x[base] + off` (LDR, STR). -/
def baseOffset (s : State) (base : RegIdx) (off : Word) : Word := s.reg base + off

end Sys2Proof.Machine
end

