-- ==== Sys2Proof/Machine/Control.lean ====
section
/-! DEFINITION. The control transfers (spec 42_control). None touches COND or memory. -/

namespace Sys2Proof.Machine

/-- BR: `pc <- pc + off` if the mask meets the flag; an Uninitialized flag meets no mask (42_control R110,
10_state R34). -/
def execBr (n z p : Bool) (off : Word) (s : State) : Result :=
  .next (if branchTaken n z p s.cond then s.setPc (pcRelative s off) else s)

/-- JMP: `pc <- x[BaseR]`, all 16 bits (42_control R111). -/
def execJmp (base : RegIdx) (s : State) : Result :=
  .next (s.setPc (s.reg base))

/-- JSR: `x[7] <- pc`, then `pc <- pc + off` (42_control R112). -/
def execJsr (off : Word) (s : State) : Result :=
  .next (s.linkPc.setPc (pcRelative s off))

/-- JSRR: `x[7] <- pc`, then `pc <- x[BaseR]`, the base read after the link is written, so `JSRR R7` goes on
with the next instruction (42_control R113; the spec's decision D3, log 8). -/
def execJsrr (base : RegIdx) (s : State) : Result :=
  .next (s.linkPc.setPc (s.linkPc.reg base))

end Sys2Proof.Machine
end

