-- ==== Sys2Proof/Machine/Load.lean ====
section
/-! DEFINITION. The loads and LEA (spec 43_load). All write DR and then update COND from it. -/

namespace Sys2Proof.Machine

/-- LD: the word at `pc + off` (43_load R120). -/
def execLd (dr : RegIdx) (off : Word) (s : State) : Result :=
  .next (s.writeResult dr (s.read (pcRelative s off)))

/-- LDI: the word at the address held at `pc + off`; the flag is that of the operand, not of the pointer
(43_load R121). -/
def execLdi (dr : RegIdx) (off : Word) (s : State) : Result :=
  .next (s.writeResult dr (s.read (indirect s off)))

/-- LDR: the word at `x[BaseR] + off`; the base is read before DR is written (43_load R122). -/
def execLdr (dr base : RegIdx) (off : Word) (s : State) : Result :=
  .next (s.writeResult dr (s.read (baseOffset s base off)))

/-- LEA: the address `pc + off` itself, no memory access; it sets the flag (43_load R123). -/
def execLea (dr : RegIdx) (off : Word) (s : State) : Result :=
  .next (s.writeResult dr (pcRelative s off))

end Sys2Proof.Machine
end

