-- ==== Sys2Proof/Machine/Store.lean ====
section
/-! DEFINITION. The stores (spec 44_store): one whole word, nothing else changes (R133). -/

namespace Sys2Proof.Machine

/-- ST: `x[SR]` to `pc + off` (44_store R130). -/
def execSt (sr : RegIdx) (off : Word) (s : State) : Result :=
  .next (s.write (pcRelative s off) (s.reg sr))

/-- STI: `x[SR]` to the address held at `pc + off`, the pointer read first (44_store R131). -/
def execSti (sr : RegIdx) (off : Word) (s : State) : Result :=
  .next (s.write (indirect s off) (s.reg sr))

/-- STR: `x[SR]` to `x[BaseR] + off` (44_store R132). -/
def execStr (sr base : RegIdx) (off : Word) (s : State) : Result :=
  .next (s.write (baseOffset s base off) (s.reg sr))

end Sys2Proof.Machine
end

