-- ==== Sys2Proof/Machine/System.lean ====
section
/-! DEFINITION. RTI, TRAP and the reserved opcode (spec 45_system). -/

namespace Sys2Proof.Machine

/-- RTI: `PrivilegedInstruction` unless a supervisory collaborator is installed; else a pure dispatch, the
core itself touching nothing (45_system R140). It is not a return from anything (60_exceptions R168). -/
def execRti (s : State) : Result :=
  if s.supPresent then dispatchSup s else raise .privilegedInstruction s

/-- TRAP: `PrivilegedInstruction`, before any write, unless a trap collaborator is installed; else the
return address goes to R7 and the vector to the collaborator (45_system R141; D5, log 10). -/
def execTrap (vector : BitVec 8) (s : State) : Result :=
  if s.trapPresent then dispatchTrap vector s.linkPc else raise .privilegedInstruction s

/-- RES: always `IllegalOpcode`, in every configuration (45_system R142). -/
def execRes (s : State) : Result :=
  raise .illegalOpcode s

end Sys2Proof.Machine
end

