-- ==== Sys2Proof/Machine/Step.lean ====
section
/-! DEFINITION. One cycle, the STEP transaction (spec 40_cycle R90): fetch, increment the PC, decode, run the
handler. The fetch, the increment and the decoder never fail (R93). -/

namespace Sys2Proof.Machine

def step (s : State) : Host.Outcome State Fault Refusal :=
  exec (decode s.fetch) s.advance

/-- `s` with a word of the opcode table stored where the next cycle fetches; it stands for the loader's
poke (70_reset_and_hazards R181; log 15). -/
def State.withFetchWord (s : State) (nbits w : Nat) : State :=
  s.write s.pc (tableWord nbits w)

end Sys2Proof.Machine
end

