-- ==== Sys2Proof/Machine/Access.lean ====
section
/-! DEFINITION. What the host does between cycles: CREATE, the loader, installing a collaborator (spec
70_reset_and_hazards). Peeks and pokes are in Ops.lean, where a collaborator uses them too. -/

namespace Sys2Proof.Machine

/-- What an instance is configured with: the open parameters, chosen per instance (00_scope R6,
70_reset_and_hazards R192). -/
structure Instance where
  trapPresent : Bool
  supPresent : Bool
  trapFeed : Feed
  supFeed : Feed
  deriving DecidableEq, Repr

/-- The host installs or removes the collaborators (70_reset_and_hazards R191). -/
def State.install (s : State) (c : Instance) : State :=
  { s with trapPresent := c.trapPresent, supPresent := c.supPresent,
           trapFeed := c.trapFeed, supFeed := c.supFeed }

/-- CREATE: a fresh machine with a configuration (70_reset_and_hazards R180). Applied to a machine that has
run it is the same, for nothing survives (R192), so it takes no state. -/
def create (c : Instance) : State := State.reset.install c

/-- The loader: an image, a list of addresses and words, poked into memory (70_reset_and_hazards R181). -/
def State.load (s : State) (image : List (Word × Word)) : State :=
  s.pokes (image.map (fun c => Poke.mem c.1 c.2))

/-- The launch state of a run (70_reset_and_hazards R181). -/
def launch (c : Instance) (image : List (Word × Word)) : State := (create c).load image

end Sys2Proof.Machine
end

