-- ==== Sys2Proof/Machine/Run.lean ====
section
/-! DEFINITION. The run loop (spec 40_cycle R96): cycles until the first outcome other than Continue. The core
itself keeps no record that it has stopped (R97). -/

namespace Sys2Proof.Machine

/-- At most `k` cycles; the loop stops at the first that does not answer a next state and reports that outcome
verbatim. The core imposes no limit; `k` is the host's bound (40_cycle R96). -/
def runLoop : Nat → State → Result
  | 0, s => .next s
  | k + 1, s =>
    match step s with
    | .next t => runLoop k t
    | .fault f => .fault f
    | .refused r => .refused r

end Sys2Proof.Machine
end

