-- ==== Sys2Proof/Safety.lean ====
section
/-! DEFINITION. The terms claims are stated in: the invariant, the spec's outcome of a cycle, and the frames. -/

namespace Sys2Proof.Machine

/-- The invariant of the model: memory keeps its canonical form. Everything else the spec asks of a state
(eight registers of 16 bits, a flag with one of four values) holds by the types. -/
def State.Inv (s : State) : Prop := Memory.wf s.mem = true

/-- The two fault reasons (60_exceptions R150, R153). -/
inductive Reason where
  | illegalOpcode
  | privilegedInstruction
  deriving DecidableEq, Repr

/-- What STEP returns (40_cycle R93). -/
inductive CycleOutcome where
  | continued
  | halt
  | fault (reason : Reason)
  deriving DecidableEq, Repr

/-- The outcome of a cycle in the spec's words and the state the cycle leaves (40_cycle R93, R95). There is
none if a collaborator never signals (60_exceptions R165). -/
def report : Result → Option (CycleOutcome × State)
  | .next t => some (.continued, t)
  | .fault (.halted t) => some (.halt, t)
  | .fault (.illegalOpcode t) => some (.fault .illegalOpcode, t)
  | .fault (.privilegedInstruction t) => some (.fault .privilegedInstruction, t)
  | .fault .collaboratorSilent => none
  | .refused _ => none

/-- Every memory word reads as before. -/
def SameMemory (s t : State) : Prop := ∀ a : Word, t.read a = s.read a

/-- Every memory word but the one at `ea` reads as before. -/
def SameMemoryBut (ea : Word) (s t : State) : Prop := ∀ a : Word, a ≠ ea → t.read a = s.read a

/-- Every general register is as before. -/
def SameRegs (s t : State) : Prop := ∀ r : RegIdx, t.reg r = s.reg r

/-- Every general register but `d` is as before. -/
def SameRegsBut (d : RegIdx) (s t : State) : Prop := ∀ r : RegIdx, r ≠ d → t.reg r = s.reg r

/-- The install flags are as before. -/
def SameFlags (s t : State) : Prop := t.trapPresent = s.trapPresent ∧ t.supPresent = s.supPresent

/-- The configuration and the collaborators are as before. -/
def SameInstance (s t : State) : Prop :=
  SameFlags s t ∧ t.trapFeed = s.trapFeed ∧ t.supFeed = s.supFeed

/-- The two states agree on the architectural state: R0 to R7, PC, COND, MEM (10_state R20). -/
def SameArch (s t : State) : Prop :=
  SameRegs s t ∧ t.pc = s.pc ∧ t.cond = s.cond ∧ SameMemory s t

/-- What a flag-affecting instruction does: the destination and COND, nothing else (10_state R32, R33). The
PC is the one of the handler, already incremented. -/
def WritesResult (d : RegIdx) (v : Word) (s t : State) : Prop :=
  t.reg d = v ∧ SameRegsBut d s t ∧ t.cond = cc v ∧ t.pc = s.pc ∧ SameMemory s t ∧ SameInstance s t

/-- What a store does: one memory word, nothing else (44_store R133). -/
def StoresWord (ea v : Word) (s t : State) : Prop :=
  t.read ea = v ∧ SameMemoryBut ea s t ∧ SameRegs s t ∧ t.cond = s.cond ∧ t.pc = s.pc ∧ SameInstance s t

/-- What a call does: the PC and the link register R7, nothing else (42_control R112, R113). -/
def CallsTo (target : Word) (s t : State) : Prop :=
  t.pc = target ∧ t.reg 7 = s.pc ∧ SameRegsBut 7 s t ∧ t.cond = s.cond ∧ SameMemory s t ∧ SameInstance s t

/-- What a jump does: the PC, nothing else (42_control R110, R111). -/
def JumpsTo (target : Word) (s t : State) : Prop :=
  t.pc = target ∧ SameRegs s t ∧ t.cond = s.cond ∧ SameMemory s t ∧ SameInstance s t

/-- The place a poke writes. -/
def Poke.place : Poke → Place
  | .reg r _ => .reg r
  | .pc _ => .pc
  | .cond _ => .cond
  | .mem a _ => .mem a

/-- What a poke leaves in its place. -/
def Poke.shown : Poke → Shown
  | .reg _ v | .pc v | .mem _ v => .word v
  | .cond c => .flag c

/-- A collaborator after `j` more dispatches. -/
def Feed.skip : Nat → Feed → Feed
  | 0, f => f
  | j + 1, f => Feed.skip j f.next

/-- What a claim assumes of a collaborator (60_exceptions R162): a relation from call and machine to answers, of which
the collaborator, at its coming dispatch and at every later one, gives a member. The environment picks which. -/
def Feed.Obeys (f : Feed) (relation : Call → Snapshot → Answer → Prop) : Prop :=
  ∀ (j : Nat) (c : Call) (m : Snapshot), relation c m ((Feed.skip j f).answer c m)

end Sys2Proof.Machine

namespace Sys2Proof

open Machine

/-- DR of the seven flag-affecting instructions: ADD, AND, NOT, LD, LDI, LDR, LEA (10_state R32). -/
def Instr.resultReg : Instr → Option RegIdx
  | .addReg dr _ _ | .addImm dr _ _ | .andReg dr _ _ | .andImm dr _ _ | .notReg dr _ => some dr
  | .ld dr _ | .ldi dr _ | .ldr dr _ _ | .lea dr _ => some dr
  | .br _ _ _ _ | .jmp _ | .jsr _ | .jsrr _ | .st _ _ | .sti _ _ | .str _ _ _ | .rti | .trap _ | .res => none

/-- The instructions that copy the PC into R7: JSR, JSRR, TRAP (10_state R24). -/
def Instr.links : Instr → Bool
  | .jsr _ | .jsrr _ | .trap _ => true
  | .addReg _ _ _ | .addImm _ _ _ | .andReg _ _ _ | .andImm _ _ _ | .notReg _ _ => false
  | .ld _ _ | .ldi _ _ | .ldr _ _ _ | .lea _ _ => false
  | .br _ _ _ _ | .jmp _ | .st _ _ | .sti _ _ | .str _ _ _ | .rti | .res => false

/-- The instructions that can write the PC beyond the increment: BR, JMP, JSR, JSRR; and TRAP and RTI, whose
collaborator may (10_state R28). -/
def Instr.transfers : Instr → Bool
  | .br _ _ _ _ | .jmp _ | .jsr _ | .jsrr _ | .trap _ | .rti => true
  | .addReg _ _ _ | .addImm _ _ _ | .andReg _ _ _ | .andImm _ _ _ | .notReg _ _ => false
  | .ld _ _ | .ldi _ _ | .ldr _ _ _ | .lea _ _ | .st _ _ | .sti _ _ | .str _ _ _ | .res => false

/-- SR of the stores ST, STI, STR (44_store R133). -/
def Instr.storeReg : Instr → Option RegIdx
  | .st sr _ | .sti sr _ | .str sr _ _ => some sr
  | .addReg _ _ _ | .addImm _ _ _ | .andReg _ _ _ | .andImm _ _ _ | .notReg _ _ => none
  | .ld _ _ | .ldi _ _ | .ldr _ _ _ | .lea _ _ => none
  | .br _ _ _ _ | .jmp _ | .jsr _ | .jsrr _ | .rti | .trap _ | .res => none

/-- The address a store writes, with the PC already incremented (44_store R130, R131, R132). -/
def Instr.storeAddress (i : Instr) (s : State) : Option Word :=
  match i with
  | .st _ off => some (pcRelative s off)
  | .sti _ off => some (indirect s off)
  | .str _ base off => some (baseOffset s base off)
  | .addReg _ _ _ | .addImm _ _ _ | .andReg _ _ _ | .andImm _ _ _ | .notReg _ _ => none
  | .ld _ _ | .ldi _ _ | .ldr _ _ _ | .lea _ _ => none
  | .br _ _ _ _ | .jmp _ | .jsr _ | .jsrr _ | .rti | .trap _ | .res => none

/-- The instruction, run in `s`, hands the machine to an installed collaborator (60_exceptions R161). -/
def Instr.dispatches (i : Instr) (s : State) : Bool :=
  match i with
  | .trap _ => s.trapPresent
  | .rti => s.supPresent
  | .addReg _ _ _ | .addImm _ _ _ | .andReg _ _ _ | .andImm _ _ _ | .notReg _ _ => false
  | .ld _ _ | .ldi _ _ | .ldr _ _ _ | .lea _ _ | .st _ _ | .sti _ _ | .str _ _ _ => false
  | .br _ _ _ _ | .jmp _ | .jsr _ | .jsrr _ | .res => false

/-- The writes a collaborator makes before it signals (60_exceptions R162). -/
def Machine.Answer.changes : Answer → List Poke
  | .complete ps => ps
  | .halt ps => ps
  | .silent => []

/-- The writes the collaborator of `i` makes when `i` runs in `s`; none if `i` dispatches to none. -/
def Instr.changes (i : Instr) (s : State) : List Poke :=
  match i with
  | .trap v => if s.trapPresent then (s.trapFeed.answer (.trap v) s.linkPc.snapshot).changes else []
  | .rti => if s.supPresent then (s.supFeed.answer .rti s.snapshot).changes else []
  | .addReg _ _ _ | .addImm _ _ _ | .andReg _ _ _ | .andImm _ _ _ | .notReg _ _ => []
  | .ld _ _ | .ldi _ _ | .ldr _ _ _ | .lea _ _ | .st _ _ | .sti _ _ | .str _ _ _ => []
  | .br _ _ _ _ | .jmp _ | .jsr _ | .jsrr _ | .res => []

end Sys2Proof
end

