-- ==== Sys2Proof/Certificates/Slice0/Obligations.lean ====
section
/-! DEFINITION. The statements about the machine. At the level of `exec` the PC of the state is the one a
handler sees, the address of the instruction plus 1 (40_cycle R91); at the level of `step` it is the
address of the instruction. In the words written out, a variable `x` or `y` stands for ignored bits. -/

open Sys2Proof Sys2Proof.Machine

/-! ### Creation and memory -/

/-- 10_state R39: the state after CREATE. -/
def Obligations.ResetIsTheCreationState : Prop :=
  (∀ r : RegIdx, State.reset.reg r = 0) ∧ State.reset.pc = 0x3000 ∧
  State.reset.cond = .uninitialized ∧ ∀ a : Word, State.reset.read a = 0

/-- Boot (70_reset_and_hazards, section 2): the launch state is the creation state with memory overwritten by the image,
in every configuration; of two words for one address the later one stays. -/
def Obligations.LaunchStateIsCreationPlusImage : Prop :=
  ∀ (c : Instance) (image : List (Word × Word)),
    (∀ r : RegIdx, (launch c image).reg r = 0) ∧ (launch c image).pc = 0x3000 ∧
    (launch c image).cond = .uninitialized ∧
    ∀ a : Word, (launch c image).read a = image.foldl (fun w p => if p.1 = a then p.2 else w) 0

/-- The invariant (the model's own form of memory, log 1) holds after CREATE. -/
def Obligations.ResetMeetsTheInvariant : Prop := State.reset.Inv

/-- Every cycle keeps the canonical form of memory (the model's own, log 1), whatever its outcome: in the next
state, and in the state a Halt or a fault leaves. The collaborators' writes are covered, since they are pokes. -/
def Obligations.EveryCycleKeepsTheInvariant : Prop :=
  ∀ s : State, s.Inv → ∀ (o : CycleOutcome) (t : State), report (step s) = some (o, t) → t.Inv

/-- 20_memory R42: after a write the word reads as written until the next write to its address, and no other
word changes. -/
def Obligations.WordReadsAsWrittenUntilTheNextWrite : Prop :=
  ∀ (s : State) (a v : Word) (later : List (Word × Word)), (∀ c ∈ later, c.1 ≠ a) →
    (later.foldl (fun u c => u.write c.1 c.2) (s.write a v)).read a = v ∧
    ∀ b : Word, b ≠ a → (s.write a v).read b = s.read b

/-- Memory is plain data (the model's form, log 1): two memories in canonical form that read alike at every address
are equal. -/
def Obligations.MemoriesThatReadAlikeAreEqual : Prop :=
  ∀ m m' : Memory, Memory.wf m = true → Memory.wf m' = true →
    (∀ a : Word, Memory.read m a = Memory.read m' a) → m = m'

/-! ### Encoding -/

/-- 00_scope R9: sign extension of the four field widths of the machine, and the source's two examples. -/
def Obligations.SignExtensionRepeatsTheTopBit : Prop :=
  (∀ (b : Nat) (f : BitVec b), b = 5 ∨ b = 6 ∨ b = 9 ∨ b = 11 →
    (sext16 f).toNat = if f.toNat / 2 ^ (b - 1) % 2 = 1 then f.toNat + (65536 - 2 ^ b) else f.toNat) ∧
  sext16 0b11111#5 = 0xFFFF ∧ sext16 0b01111#5 = 0x000F

/-- 30_encoding R62: the opcode map, value by value. -/
def Obligations.OpcodeMapIsTheDocuments : Prop :=
  (List.range 16).map (fun k => opcodeOf (BitVec.ofNat 4 k)) =
    [.br, .add, .ld, .st, .jsr, .and, .ldr, .str, .rti, .not, .ldi, .sti, .jmp, .res, .lea, .trap]

/-- Decode and encode agree: every well-formed instruction, with every operand its encoding admits, is what its
word decodes to. -/
def Obligations.DecodeOfEncodeIsTheInstruction : Prop :=
  ∀ i : Instr, i.wf = true → decode (encode i) = i

/-- The other direction: every word decodes to a well-formed instruction, whose own word differs from it in
ignored bits only (which bits are ignored: the spec's inference R79, decision D14; log 12, log 17). -/
def Obligations.EncodeOfDecodeKeepsEveryNamedBit : Prop :=
  ∀ w : Word, (decode w).wf = true ∧
    ∀ row ∈ opcodeTable, row.matches w = true → encode (decode w) &&& ~~~row.ignored = w &&& ~~~row.ignored

/-- opcode_table.json: the 19 rows partition the 65536 words, and the decoder yields the row's instruction. -/
def Obligations.OpcodeTablePartitionsTheWords : Prop :=
  ∀ w : Word, ∃ row ∈ opcodeTable, row.matches w = true ∧ row.mnemonic = (decode w).mnemonic ∧
    ∀ row' ∈ opcodeTable, row'.matches w = true → row' = row

/-- Bits that no field names do not change what a word decodes to (the spec's inference R79, decision D14). -/
def Obligations.IgnoredBitsHaveNoEffect : Prop :=
  ∀ row ∈ opcodeTable, ∀ w x : Word, row.matches w = true → decode (w ^^^ (x &&& row.ignored)) = decode w

/-- Words of every family, assembled by hand in the spec (30_encoding, worked decodings; 95_test_vectors),
decode to the instructions they stand for. -/
def Obligations.WorkedWordsDecodeAsTheSpecSays : Prop :=
  decode 0x107D = .addImm 0 1 (-3) ∧ decode 0x14C4 = .addReg 2 3 4 ∧ decode 0x03FD = .br false false true (-3) ∧
  decode 0x4803 = .jsr 3 ∧ decode 0x4080 = .jsrr 2 ∧ decode 0x62A0 = .ldr 1 2 (-32) ∧ decode 0xF025 = .trap 0x25 ∧
  decode 0x5042 = .andReg 0 1 2 ∧ decode 0x506F = .andImm 0 1 15 ∧ decode 0x92BF = .notReg 1 2 ∧
  decode 0xCEFF = .jmp 3 ∧ decode 0x2300 = .ld 1 (-256) ∧ decode 0xA3FF = .ldi 1 (-1) ∧ decode 0xE00B = .lea 0 11 ∧
  decode 0x3EFF = .st 7 255 ∧ decode 0xB201 = .sti 1 1 ∧ decode 0x719F = .str 0 6 31 ∧ decode 0x8FFF = .rti ∧
  decode 0xDFFF = .res

/-! ### The cycle -/

/-- 40_cycle R90: a cycle fetches the word at the PC, increments the PC, decodes, and runs the one handler. -/
def Obligations.StepRunsTheDecodedInstruction : Prop :=
  ∀ (s : State) (w : Word) (i : Instr), s.read s.pc = w → decode w = i →
    step s = exec i { s with pc := s.pc + 1 }

/-- Which instruction can return which outcome: the table of 40_cycle, section 2. That a cycle whose collaborator
never signals has no outcome is the model's stuck state (log 7). -/
def Obligations.OutcomesOfEachInstruction : Prop :=
  ∀ (s : State) (i : Instr), decode s.fetch = i →
    (i ≠ .res → i ≠ .rti → (∀ v, i ≠ .trap v) → ∃ t, step s = .next t) ∧
    (i = .res → ∃ t, step s = .fault (.illegalOpcode t)) ∧
    ((∃ v, i = .trap v) → s.trapPresent = false → ∃ t, step s = .fault (.privilegedInstruction t)) ∧
    ((∃ v, i = .trap v) → s.trapPresent = true →
      (∃ t, step s = .next t) ∨ (∃ t, step s = .fault (.halted t)) ∨ step s = .fault .collaboratorSilent) ∧
    (i = .rti → s.supPresent = false → ∃ t, step s = .fault (.privilegedInstruction t)) ∧
    (i = .rti → s.supPresent = true →
      (∃ t, step s = .next t) ∨ (∃ t, step s = .fault (.halted t)) ∨ step s = .fault .collaboratorSilent)

/-- A cycle that faults changes the PC only, which it leaves incremented (the spec's decisions D4 and D5; log 9,
log 10). -/
def Obligations.FaultingCycleChangesOnlyThePc : Prop :=
  ∀ (s t : State) (r : Reason), report (step s) = some (.fault r, t) → t = { s with pc := s.pc + 1 }

/-- 30_encoding R78: the words with opcode 13 are the only illegal ones, in every configuration. -/
def Obligations.IllegalOpcodeExactlyOnOpcodeThirteen : Prop :=
  ∀ s : State, (∃ t, report (step s) = some (.fault .illegalOpcode, t)) ↔
    0xD000 ≤ s.fetch.toNat ∧ s.fetch.toNat ≤ 0xDFFF

/-- PrivilegedInstruction is raised exactly by an RTI or a TRAP whose collaborator is not installed (with the two
install flags of the spec's decision D9). -/
def Obligations.PrivilegedExactlyWithoutACollaborator : Prop :=
  ∀ s : State, (∃ t, report (step s) = some (.fault .privilegedInstruction, t)) ↔
    (0x8000 ≤ s.fetch.toNat ∧ s.fetch.toNat ≤ 0x8FFF ∧ s.supPresent = false) ∨
    (0xF000 ≤ s.fetch.toNat ∧ s.trapPresent = false)

/-- 10_state R26: the handler sees the address of the instruction plus 1, and an instruction that does not write
the PC leaves it there; at 0xFFFF that is 0. -/
def Obligations.PcIsIncrementedAndLeftSo : Prop :=
  ∀ s : State, step s = exec (decode s.fetch) (s.setPc (s.pc + 1)) ∧
    ∀ (o : CycleOutcome) (t : State), report (step s) = some (o, t) → (decode s.fetch).transfers = false →
      t.pc = s.pc + 1 ∧ (s.pc = 0xFFFF → t.pc = 0)

/-- 10_state R32: COND is written by the seven flag-affecting instructions only, after the register and from it;
the core changes it in no other instruction, TRAP and RTI among them, and a poke of a register does not. -/
def Obligations.CondIsWrittenOnlyByFlagAffecting : Prop :=
  (∀ (s t : State) (o : CycleOutcome), report (step s) = some (o, t) →
    (∀ c, Poke.cond c ∉ (decode s.fetch).changes s.advance) →
    t.cond = match (decode s.fetch).resultReg with
      | some d => cc (t.reg d)
      | none => s.cond) ∧
  ∀ (s : State) (r : RegIdx) (v : Word), (s.poke (.reg r v)).cond = s.cond

/-- 10_state R29: U holds from CREATE until the first flag-affecting instruction, and no instruction sets COND back
to U; only a collaborator could, by writing it. -/
def Obligations.CondNeverReturnsToUninitialized : Prop :=
  State.reset.cond = .uninitialized ∧
  ∀ (s t : State) (o : CycleOutcome), report (step s) = some (o, t) →
    (Poke.cond .uninitialized ∉ (decode s.fetch).changes s.advance → t.cond = .uninitialized →
      s.cond = .uninitialized ∧ (decode s.fetch).resultReg = none) ∧
    ((∀ c, Poke.cond c ∉ (decode s.fetch).changes s.advance) → s.cond = .uninitialized →
      (decode s.fetch).resultReg = none → t.cond = .uninitialized)

/-- 10_state R34: COND is read only by BR, and an Uninitialized flag branches on no mask. Any other instruction
that is not handed to a collaborator has the same outcome whatever COND is. -/
def Obligations.CondIsReadOnlyByBr : Prop :=
  (∀ (n z p : Bool) (off : Word) (s : State), s.cond = .uninitialized → exec (.br n z p off) s = .next s) ∧
  ∀ (i : Instr) (s : State) (c : Cond), (∀ n z p off, i ≠ .br n z p off) → i.dispatches s = false →
    ∃ (o : CycleOutcome) (t u : State), report (exec i s) = some (o, t) ∧
      report (exec i (s.setCond c)) = some (o, u) ∧ u.pc = t.pc ∧ SameRegs t u ∧ SameMemory t u

/-- The table of register access (10_state, section 2, the spec's inference): a cycle changes no general register but the destination field's, R7
of JSR, JSRR and TRAP, and those a collaborator writes. -/
def Obligations.OnlyNamedRegistersAreWritten : Prop :=
  ∀ (s t : State) (o : CycleOutcome), report (step s) = some (o, t) → ∀ r : RegIdx,
    (decode s.fetch).resultReg ≠ some r → ((decode s.fetch).links = true → r ≠ 7) →
    (∀ v, Poke.reg r v ∉ (decode s.fetch).changes s.advance) → t.reg r = s.reg r

/-- The table of memory accesses (20_memory, section 7, the spec's inference): a cycle changes no memory word but the one a store's address names and those
a collaborator writes. -/
def Obligations.OnlyTheStoreAddressIsWritten : Prop :=
  ∀ (s t : State) (o : CycleOutcome), report (step s) = some (o, t) → ∀ a : Word,
    (decode s.fetch).storeAddress s.advance ≠ some a →
    (∀ v, Poke.mem a v ∉ (decode s.fetch).changes s.advance) → t.read a = s.read a

/-- The very next fetch sees a store, at the address after the store or at any other (the spec's inference R54). -/
def Obligations.StoreIsSeenByTheNextFetch : Prop :=
  ∀ (s : State) (ea : Word) (sr : RegIdx), (decode s.fetch).storeAddress s.advance = some ea →
    (decode s.fetch).storeReg = some sr →
    ∃ t, step s = .next t ∧ t.pc = s.pc + 1 ∧
      step t = exec (decode (if ea = s.pc + 1 then s.reg sr else s.read (s.pc + 1))) (t.setPc (s.pc + 2))

/-- 40_cycle R98: but for a dispatched TRAP or RTI, next state and outcome depend only on R0 to R7, PC, COND, MEM and
the two install flags. -/
def Obligations.OutcomeDependsOnlyOnArchitecturalState : Prop :=
  ∀ s u : State, SameArch s u → SameFlags s u → (decode s.fetch).dispatches s = false →
    ∃ (o : CycleOutcome) (s' u' : State), report (step s) = some (o, s') ∧ report (step u) = some (o, u') ∧
      SameArch s' u' ∧ SameFlags s' u'

/-- No instruction and no collaborator changes which collaborators are installed (the spec's decision D9: the flags
are fixed for an instance). -/
def Obligations.NoCycleChangesTheInstallFlags : Prop :=
  ∀ (s t : State) (o : CycleOutcome), report (step s) = some (o, t) → SameFlags s t

/-- 40_cycle R96: the run loop stops after the first cycle whose outcome is Halt or a fault and reports it verbatim;
while every outcome is Continue it goes on. -/
def Obligations.RunStopsAtTheFirstOtherOutcome : Prop :=
  (∀ (j k : Nat) (s : State) (f : Fault), runLoop j s = .fault f → j ≤ k → runLoop k s = .fault f) ∧
  (∀ (k : Nat) (s t : State), runLoop k s = .next t → runLoop (k + 1) s = step t)

/-- Zeroed memory executes as a run of no-operations (the spec's inferences R80 and R182): from any state whose memory
reads 0 everywhere, k cycles move the PC by k, wrapping, and change nothing else. -/
def Obligations.ZeroedMemoryOnlyAdvancesThePc : Prop :=
  ∀ (k : Nat) (s : State), (∀ a : Word, s.read a = 0) →
    runLoop k s = .next { s with pc := s.pc + BitVec.ofNat 16 k }

/-! ### The operate instructions -/

/-- 10_state R33: the flag an update gives, from the value just written to the register. -/
def Obligations.FlagFollowsTheValueWritten : Prop :=
  ∀ (s : State) (r : RegIdx) (v : Word),
    (v.toNat = 0 → ((s.setReg r v).updateFlags r).cond = .zero) ∧
    (0x8000 ≤ v.toNat ∧ v.toNat ≤ 0xFFFF → ((s.setReg r v).updateFlags r).cond = .negative) ∧
    (0x0001 ≤ v.toNat ∧ v.toNat ≤ 0x7FFF → ((s.setReg r v).updateFlags r).cond = .positive)

/-- 41_alu R102. -/
def Obligations.AddRegisterForm : Prop :=
  ∀ (dr sr1 sr2 : RegIdx) (x : BitVec 2) (s : State),
    decode (0x1#4 ++ regBits dr ++ regBits sr1 ++ 0b0#1 ++ x ++ regBits sr2) = .addReg dr sr1 sr2 ∧
    ∃ t, exec (.addReg dr sr1 sr2) s = .next t ∧ WritesResult dr (s.reg sr1 + s.reg sr2) s t

/-- 41_alu R103. -/
def Obligations.AddImmediateForm : Prop :=
  ∀ (dr sr1 : RegIdx) (imm5 : BitVec 5) (s : State),
    decode (0x1#4 ++ regBits dr ++ regBits sr1 ++ 0b1#1 ++ imm5) = .addImm dr sr1 (sext16 imm5) ∧
    ∃ t, exec (.addImm dr sr1 (sext16 imm5)) s = .next t ∧ WritesResult dr (s.reg sr1 + sext16 imm5) s t

/-- 41_alu R104: bit i of the result is the AND of bits i. -/
def Obligations.AndRegisterForm : Prop :=
  ∀ (dr sr1 sr2 : RegIdx) (x : BitVec 2) (s : State),
    decode (0x5#4 ++ regBits dr ++ regBits sr1 ++ 0b0#1 ++ x ++ regBits sr2) = .andReg dr sr1 sr2 ∧
    ∃ t, exec (.andReg dr sr1 sr2) s = .next t ∧ WritesResult dr (s.reg sr1 &&& s.reg sr2) s t ∧
      ∀ k : Nat, (t.reg dr).getLsbD k = ((s.reg sr1).getLsbD k && (s.reg sr2).getLsbD k)

/-- 41_alu R105. -/
def Obligations.AndImmediateForm : Prop :=
  ∀ (dr sr1 : RegIdx) (imm5 : BitVec 5) (s : State),
    decode (0x5#4 ++ regBits dr ++ regBits sr1 ++ 0b1#1 ++ imm5) = .andImm dr sr1 (sext16 imm5) ∧
    ∃ t, exec (.andImm dr sr1 (sext16 imm5)) s = .next t ∧ WritesResult dr (s.reg sr1 &&& sext16 imm5) s t

/-- 41_alu R106: the complement is 0xFFFF minus the operand. -/
def Obligations.NotForm : Prop :=
  ∀ (dr sr : RegIdx) (x : BitVec 6) (s : State),
    decode (0x9#4 ++ regBits dr ++ regBits sr ++ x) = .notReg dr sr ∧
    ∃ t, exec (.notReg dr sr) s = .next t ∧ WritesResult dr (0xFFFF - s.reg sr) s t

/-- NOT twice restores the value, and COND follows the second result (95_test_vectors, section 4). -/
def Obligations.NotTwiceRestoresTheValue : Prop :=
  ∀ (d e sr : RegIdx) (s : State), ∃ t u, exec (.notReg d sr) s = .next t ∧ exec (.notReg e d) t = .next u ∧
    u.reg e = s.reg sr ∧ u.cond = cc (s.reg sr)

/-! ### Control transfers -/

/-- 42_control R110: BR is taken exactly when COND is N and n, or Z and z, or P and p. -/
def Obligations.BrForm : Prop :=
  ∀ (n z p : Bool) (off9 : BitVec 9) (s : State),
    decode (0x0#4 ++ BitVec.ofBool n ++ BitVec.ofBool z ++ BitVec.ofBool p ++ off9) = .br n z p (sext16 off9) ∧
    ∃ t, exec (.br n z p (sext16 off9)) s = .next t ∧
      ((s.cond = .negative ∧ n = true) ∨ (s.cond = .zero ∧ z = true) ∨ (s.cond = .positive ∧ p = true) →
        JumpsTo (s.pc + sext16 off9) s t) ∧
      (¬((s.cond = .negative ∧ n = true) ∨ (s.cond = .zero ∧ z = true) ∨ (s.cond = .positive ∧ p = true)) →
        JumpsTo s.pc s t)

/-- A taken BR with offset -1 branches to itself: the cycle leaves the whole state as it was (42_control R110,
corner case d). -/
def Obligations.TakenBrToItselfRepeats : Prop :=
  ∀ (s : State) (n z p : Bool), decode s.fetch = .br n z p 0xFFFF →
    (s.cond = .negative ∧ n = true) ∨ (s.cond = .zero ∧ z = true) ∨ (s.cond = .positive ∧ p = true) →
    step s = .next s

/-- 42_control R111. -/
def Obligations.JmpForm : Prop :=
  ∀ (x : BitVec 3) (base : RegIdx) (y : BitVec 6) (s : State),
    decode (0xC#4 ++ x ++ regBits base ++ y) = .jmp base ∧
    ∃ t, exec (.jmp base) s = .next t ∧ JumpsTo (s.reg base) s t

/-- 42_control R112. -/
def Obligations.JsrForm : Prop :=
  ∀ (off11 : BitVec 11) (s : State),
    decode (0x4#4 ++ 0b1#1 ++ off11) = .jsr (sext16 off11) ∧
    ∃ t, exec (.jsr (sext16 off11)) s = .next t ∧ CallsTo (s.pc + sext16 off11) s t

/-- JSRR: the base register is read after R7 is written, so JSRR R7 goes on with the next instruction (42_control
R113, the spec's decision D3; log 8). -/
def Obligations.JsrrForm : Prop :=
  ∀ (x : BitVec 2) (base : RegIdx) (y : BitVec 6) (s : State),
    decode (0x4#4 ++ 0b0#1 ++ x ++ regBits base ++ y) = .jsrr base ∧
    ∃ t, exec (.jsrr base) s = .next t ∧ CallsTo (if base = 7 then s.pc else s.reg base) s t

/-- 42_control R115: JSR, JSRR and TRAP leave the return address in R7 (for TRAP: unless the collaborator writes R7),
and a later JMP through R7, from any state in which R7 still holds it, returns there. -/
def Obligations.CallThenJmpThroughR7Returns : Prop :=
  ∀ (s t u : State) (o : CycleOutcome), (decode s.fetch).links = true →
    ((decode s.fetch).dispatches s = true ∨ ∀ v, decode s.fetch ≠ .trap v) →
    (∀ v, Poke.reg 7 v ∉ (decode s.fetch).changes s.advance) → report (step s) = some (o, t) →
    t.reg 7 = s.pc + 1 ∧
    (decode u.fetch = .jmp 7 → u.reg 7 = t.reg 7 → ∃ v, step u = .next v ∧ v.pc = s.pc + 1)

/-! ### Loads, LEA and stores -/

/-- 43_load R120. -/
def Obligations.LdForm : Prop :=
  ∀ (dr : RegIdx) (off9 : BitVec 9) (s : State),
    decode (0x2#4 ++ regBits dr ++ off9) = .ld dr (sext16 off9) ∧
    ∃ t, exec (.ld dr (sext16 off9)) s = .next t ∧ WritesResult dr (s.read (s.pc + sext16 off9)) s t

/-- 43_load R121. -/
def Obligations.LdiForm : Prop :=
  ∀ (dr : RegIdx) (off9 : BitVec 9) (s : State),
    decode (0xA#4 ++ regBits dr ++ off9) = .ldi dr (sext16 off9) ∧
    ∃ t, exec (.ldi dr (sext16 off9)) s = .next t ∧ WritesResult dr (s.read (s.read (s.pc + sext16 off9))) s t

/-- 43_load R122. -/
def Obligations.LdrForm : Prop :=
  ∀ (dr base : RegIdx) (off6 : BitVec 6) (s : State),
    decode (0x6#4 ++ regBits dr ++ regBits base ++ off6) = .ldr dr base (sext16 off6) ∧
    ∃ t, exec (.ldr dr base (sext16 off6)) s = .next t ∧ WritesResult dr (s.read (s.reg base + sext16 off6)) s t

/-- LEA, the effect of 43_load section 3; its property of LEA, ST and LD together is a statement of its own. -/
def Obligations.LeaForm : Prop :=
  ∀ (dr : RegIdx) (off9 : BitVec 9) (s : State),
    decode (0xE#4 ++ regBits dr ++ off9) = .lea dr (sext16 off9) ∧
    ∃ t, exec (.lea dr (sext16 off9)) s = .next t ∧ WritesResult dr (s.pc + sext16 off9) s t

/-- 44_store R130. -/
def Obligations.StForm : Prop :=
  ∀ (sr : RegIdx) (off9 : BitVec 9) (s : State),
    decode (0x3#4 ++ regBits sr ++ off9) = .st sr (sext16 off9) ∧
    ∃ t, exec (.st sr (sext16 off9)) s = .next t ∧ StoresWord (s.pc + sext16 off9) (s.reg sr) s t

/-- 44_store R131: the address is the pointer word as it was before the store. -/
def Obligations.StiForm : Prop :=
  ∀ (sr : RegIdx) (off9 : BitVec 9) (s : State),
    decode (0xB#4 ++ regBits sr ++ off9) = .sti sr (sext16 off9) ∧
    ∃ t, exec (.sti sr (sext16 off9)) s = .next t ∧ StoresWord (s.read (s.pc + sext16 off9)) (s.reg sr) s t

/-- 44_store R132. -/
def Obligations.StrForm : Prop :=
  ∀ (sr base : RegIdx) (off6 : BitVec 6) (s : State),
    decode (0x7#4 ++ regBits sr ++ regBits base ++ off6) = .str sr base (sext16 off6) ∧
    ∃ t, exec (.str sr base (sext16 off6)) s = .next t ∧ StoresWord (s.reg base + sext16 off6) (s.reg sr) s t

/-- LEA computing address A, followed by ST of value V to A, followed by LD from A, yields V; each of the three has
its own offset (43_load R123, property from the source). -/
def Obligations.LeaThenStThenLdYieldsTheValue : Prop :=
  ∀ (s t u : State) (d sr e : RegIdx) (off off' off'' : Word),
    decode s.fetch = .lea d off → step s = .next t →
    decode t.fetch = .st sr off' → t.pc + 1 + off' = t.reg d → step t = .next u →
    decode u.fetch = .ld e off'' → u.pc + 1 + off'' = t.reg d →
    ∃ v, step u = .next v ∧ v.reg e = t.reg sr ∧ v.cond = cc (t.reg sr)

/-! ### RTI, TRAP, RES -/

/-- RES raises IllegalOpcode in every configuration and the handler changes nothing (45_system R142, with the PC of
decision D4). -/
def Obligations.ResForm : Prop :=
  ∀ (x : BitVec 12) (s : State), decode (0xD#4 ++ x) = .res ∧ exec .res s = .fault (.illegalOpcode s)

/-- RTI without a supervisory collaborator raises PrivilegedInstruction and the handler changes nothing; with one,
it is a pure dispatch: the state handed over is the state, and the cycle ends as the collaborator signals, with
what it wrote (45_system R140; decisions D9, D10; the collaborator is the model's free value, log 4). -/
def Obligations.RtiForm : Prop :=
  ∀ (x : BitVec 12) (s : State), decode (0x8#4 ++ x) = .rti ∧
    (s.supPresent = false → exec .rti s = .fault (.privilegedInstruction s)) ∧
    (s.supPresent = true → ∃ h : State, SameArch s h ∧ SameFlags s h ∧ h.trapFeed = s.trapFeed ∧
      h.supFeed = s.supFeed.next ∧
      (∀ ps, s.supFeed.answer .rti h.snapshot = .complete ps → exec .rti s = .next (h.pokes ps)) ∧
      (∀ ps, s.supFeed.answer .rti h.snapshot = .halt ps → exec .rti s = .fault (.halted (h.pokes ps))) ∧
      (s.supFeed.answer .rti h.snapshot = .silent → report (exec .rti s) = none))

/-- TRAP without a trap collaborator raises PrivilegedInstruction before any write, R7 unchanged (45_system R141;
decisions D5, D9). -/
def Obligations.TrapWithoutACollaboratorFaults : Prop :=
  ∀ (x : BitVec 4) (vector : BitVec 8) (s : State), decode (0xF#4 ++ x ++ vector) = .trap vector ∧
    (s.trapPresent = false → exec (.trap vector) s = .fault (.privilegedInstruction s))

/-- Trap dispatch (60_exceptions, sections 5 and 6; the collaborator is the model's free value, log 4): a TRAP with a
trap collaborator copies the incremented PC into R7 and changes nothing else, and hands over the vector and the
machine, R7 already holding the return address; on Complete the cycle ends with Continue, in the state the collaborator
left. For every collaborator. -/
def Obligations.TrapSavesThePcAndDispatches : Prop :=
  ∀ (vector : BitVec 8) (s : State), s.trapPresent = true →
    ∃ h : State, h.reg 7 = s.pc ∧ SameRegsBut 7 s h ∧ h.pc = s.pc ∧ h.cond = s.cond ∧ SameMemory s h ∧
      SameFlags s h ∧ h.supFeed = s.supFeed ∧ h.trapFeed = s.trapFeed.next ∧
      (∀ ps, s.trapFeed.answer (.trap vector) h.snapshot = .complete ps →
        exec (.trap vector) s = .next (h.pokes ps)) ∧
      (∀ ps, s.trapFeed.answer (.trap vector) h.snapshot = .halt ps →
        exec (.trap vector) s = .fault (.halted (h.pokes ps))) ∧
      (s.trapFeed.answer (.trap vector) h.snapshot = .silent → report (exec (.trap vector) s) = none)

/-- The completion of TRAP, in the model's form of a collaborator (log 4): with a trap collaborator that signals
Complete and writes nothing, the cycle answers the next state with R7 holding the return address and everything else
as it was. -/
def Obligations.TrapCompletesWhenTheCollaboratorDoes : Prop :=
  ∀ (vector : BitVec 8) (s : State), s.trapPresent = true →
    s.trapFeed.answer (.trap vector) (s.setReg 7 s.pc).snapshot = .complete [] →
    ∃ t, exec (.trap vector) s = .next t ∧ t.reg 7 = s.pc ∧ SameRegsBut 7 s t ∧ t.pc = s.pc ∧ t.cond = s.cond ∧
      SameMemory s t ∧ SameFlags s t ∧ t.supFeed = s.supFeed ∧ t.trapFeed = s.trapFeed.next

/-- A dispatch ends as the relation assumed of the collaborator allows (60_exceptions, section 5; decisions D8 and D10;
log 4): whatever the relation from call, received machine and answer, a dispatched TRAP or RTI finishes with an answer
that the relation gives for the vector and the machine handed over, and the assumption still holds after it. -/
def Obligations.DispatchFollowsTheAssumedRelation : Prop :=
  (∀ (relation : Call → Snapshot → Answer → Prop) (vector : BitVec 8) (s : State), s.trapPresent = true →
    s.trapFeed.Obeys relation →
    ∃ (h : State) (a : Answer), relation (.trap vector) h.snapshot a ∧ exec (.trap vector) s = finish a h ∧
      h.reg 7 = s.pc ∧ SameRegsBut 7 s h ∧ h.pc = s.pc ∧ h.cond = s.cond ∧ SameMemory s h ∧ SameFlags s h ∧
      h.supFeed = s.supFeed ∧ h.trapFeed.Obeys relation) ∧
  (∀ (relation : Call → Snapshot → Answer → Prop) (s : State), s.supPresent = true → s.supFeed.Obeys relation →
    ∃ (h : State) (a : Answer), relation .rti h.snapshot a ∧ exec .rti s = finish a h ∧ SameArch s h ∧
      SameFlags s h ∧ h.trapFeed = s.trapFeed ∧ h.supFeed.Obeys relation)

/-- What a claim assumes of the collaborators holds throughout a run: every cycle keeps it, whatever its outcome
(60_exceptions, section 5; log 4). -/
def Obligations.EveryCycleKeepsTheAssumedRelations : Prop :=
  ∀ (trapRelation supRelation : Call → Snapshot → Answer → Prop) (s t : State) (o : CycleOutcome),
    s.trapFeed.Obeys trapRelation → s.supFeed.Obeys supRelation → report (step s) = some (o, t) →
    t.trapFeed.Obeys trapRelation ∧ t.supFeed.Obeys supRelation

/-- What a collaborator may write, and that nothing else changes: registers, PC, COND and memory words, each by the
last write to it (60_exceptions, section 5; 70_reset_and_hazards, section 3; decisions D8 and D13, log 4, log 14). -/
def Obligations.PokesWriteTheirPlaceOnly : Prop :=
  ∀ (s : State) (ps : List Poke) (q : Poke),
    match q with
    | .reg r v => (s.pokes (ps ++ [q])).reg r = v ∧ SameRegsBut r (s.pokes ps) (s.pokes (ps ++ [q])) ∧
        (s.pokes (ps ++ [q])).pc = (s.pokes ps).pc ∧ (s.pokes (ps ++ [q])).cond = (s.pokes ps).cond ∧
        SameMemory (s.pokes ps) (s.pokes (ps ++ [q])) ∧ SameInstance s (s.pokes (ps ++ [q]))
    | .pc v => JumpsTo v (s.pokes ps) (s.pokes (ps ++ [q])) ∧ SameInstance s (s.pokes (ps ++ [q]))
    | .cond c => (s.pokes (ps ++ [q])).cond = c ∧ SameRegs (s.pokes ps) (s.pokes (ps ++ [q])) ∧
        (s.pokes (ps ++ [q])).pc = (s.pokes ps).pc ∧ SameMemory (s.pokes ps) (s.pokes (ps ++ [q])) ∧
        SameInstance s (s.pokes (ps ++ [q]))
    | .mem a v => StoresWord a v (s.pokes ps) (s.pokes (ps ++ [q])) ∧ SameInstance s (s.pokes (ps ++ [q]))

/-- A peek of any place, COND among them, shows what the last poke of it left, and a poke changes what no other place
shows (70_reset_and_hazards, section 3; decision D13, log 14). -/
def Obligations.PeekShowsWhatWasPoked : Prop :=
  ∀ (s : State) (ps : List Poke) (q : Poke), (s.pokes (ps ++ [q])).peek q.place = q.shown ∧
    ∀ p : Place, p ≠ q.place → (s.pokes (ps ++ [q])).peek p = (s.pokes ps).peek p
end

