-- ==== Sys2Proof/Laws/Decode.lean ====
section
/-! SUPPORT. Laws of the decoder and the encoder: the value of a concatenation and of a field as numbers, how
every row of the opcode table decodes, and how signed fields and their operands correspond. -/

namespace Sys2Proof

/-- A concatenation as a number. -/
theorem toNat_concat {m n : Nat} (x : BitVec m) (y : BitVec n) :
    (x ++ y).toNat = x.toNat * 2 ^ n + y.toNat := by
  rw [BitVec.toNat_append, ← Nat.shiftLeft_add_eq_or_of_lt y.isLt, Nat.shiftLeft_eq]

/-- A field as a number (00_scope R7). -/
theorem toNat_bits (w : Word) (hi lo : Nat) :
    (bits w hi lo).toNat = w.toNat / 2 ^ lo % 2 ^ (hi - lo + 1) := by
  simp [bits, BitVec.extractLsb, BitVec.extractLsb', Nat.shiftRight_eq_div_pow]

/-- One bit as a number (00_scope R7). -/
theorem bit_eq (w : Word) (i : Nat) : bit w i = decide (w.toNat / 2 ^ i % 2 = 1) := by
  simp [bit, BitVec.getLsbD, Nat.testBit_eq_decide_div_mod_eq]

@[simp] theorem toNat_regBits (r : RegIdx) : (regBits r).toNat = r.val := rfl

@[simp] theorem regOf_regBits (r : RegIdx) : regOf (regBits r) = r := rfl

@[simp] theorem regBits_regOf (f : BitVec 3) : regBits (regOf f) = f := rfl

/-- A field of a word from the numbers of both. -/
theorem bits_eq_of {w : Word} {hi lo : Nat} {f : BitVec (hi - lo + 1)}
    (h : w.toNat / 2 ^ lo % 2 ^ (hi - lo + 1) = f.toNat) : bits w hi lo = f :=
  BitVec.eq_of_toNat_eq (by rw [toNat_bits, h])

/-- One bit from the number of the word. -/
theorem bit_eq_of {w : Word} {i : Nat} {b : Bool} (h : w.toNat / 2 ^ i % 2 = b.toNat) : bit w i = b := by
  rw [bit_eq, h]; cases b <;> rfl

/-- The identifier of a word from its number (30_encoding R61). -/
theorem opcodeOf_eq {w : Word} (k : Nat) {o : Opcode} (h : w.toNat / 4096 = k)
    (ho : opcodeOf (BitVec.ofNat 4 k) = o) : opcodeOf (bits w 15 12) = o := by
  have hw := w.isLt
  rw [bits_eq_of (hi := 15) (lo := 12) (f := BitVec.ofNat 4 k), ho]
  simp only [BitVec.toNat_ofNat]; omega

/-! ### Fields of masked words -/

theorem bits_and (w v : Word) (hi lo : Nat) : bits (w &&& v) hi lo = bits w hi lo &&& bits v hi lo := by
  unfold bits; ext i; simp [BitVec.extractLsb]

theorem bits_xor (w v : Word) (hi lo : Nat) : bits (w ^^^ v) hi lo = bits w hi lo ^^^ bits v hi lo := by
  unfold bits; ext i; simp [BitVec.extractLsb]

theorem bit_and (w v : Word) (i : Nat) : bit (w &&& v) i = (bit w i && bit v i) := by simp [bit]

theorem bit_xor (w v : Word) (i : Nat) : bit (w ^^^ v) i = (bit w i ^^ bit v i) := by simp [bit]

/-- A field all of whose bits a row of the opcode table fixes. -/
theorem Row.bits_eq {row : Row} {w : Word} (h : row.matches w = true) {hi lo : Nat}
    (hm : bits row.mask hi lo = BitVec.allOnes _) : bits w hi lo = bits row.pattern hi lo := by
  have : w &&& row.mask = row.pattern := by simpa [Row.matches] using h
  rw [← this, bits_and, hm, BitVec.and_allOnes]

/-- One bit that a row of the opcode table fixes. -/
theorem Row.bit_eq {row : Row} {w : Word} (h : row.matches w = true) {i : Nat}
    (hm : bit row.mask i = true) : bit w i = bit row.pattern i := by
  have : w &&& row.mask = row.pattern := by simpa [Row.matches] using h
  rw [← this, bit_and, hm, Bool.and_true]

/-! ### Signed fields and their operands -/

/-- The field of a sign-extended field is the field (00_scope R9). -/
theorem field_sext16 {b : Nat} (hb : b ≤ 16) (f : BitVec b) : field b (sext16 f) = f := by
  unfold field sext16
  ext i hi
  have : i < 16 := by omega
  simp [BitVec.getElem_signExtend, hi, this]

/-- Sign-extending the field of a value that fits gives the value (00_scope R9). -/
theorem sext16_field {b : Nat} (hb : 0 < b) (hb' : b ≤ 16) {v : Word} (h : fitsSigned b v = true) :
    sext16 (field b v) = v := by
  simp only [fitsSigned, Bool.and_eq_true, decide_eq_true_eq] at h
  apply BitVec.eq_of_toInt_eq
  unfold sext16 field
  rw [BitVec.toInt_signExtend_of_le hb', BitVec.toInt_setWidth]
  have h2 : (2 : Int) ^ b = 2 * 2 ^ (b - 1) := by rw [← pow_succ']; congr 1; omega
  have hdvd : ((2 ^ b : Nat) : Int) ∣ 2 ^ 16 := by rw [Nat.cast_pow]; exact pow_dvd_pow _ hb'
  have hmod : (v.toNat : Int).bmod (2 ^ b) = v.toInt.bmod (2 ^ b) := by
    rw [BitVec.toInt_eq_toNat_bmod]
    exact (Int.bmod_bmod_of_dvd (by rw [← Int.natCast_dvd_natCast]; simpa using hdvd)).symm
  rw [hmod]
  apply Int.bmod_eq_of_le <;> push_cast <;> omega

/-- A sign-extended field fits (00_scope R9, the table of ranges). -/
theorem fitsSigned_sext16 {b : Nat} (hb : b ≤ 16) (f : BitVec b) : fitsSigned b (sext16 f) = true := by
  simp only [fitsSigned, Bool.and_eq_true, decide_eq_true_eq, sext16, BitVec.toInt_signExtend_of_le hb]
  exact ⟨BitVec.le_toInt f, BitVec.toInt_lt⟩

/-! ### How each row of the opcode table decodes, with every value of its fields and of its ignored bits -/

theorem decode_br (n z p : Bool) (off : BitVec 9) :
    decode (0x0#4 ++ BitVec.ofBool n ++ BitVec.ofBool z ++ BitVec.ofBool p ++ off) = .br n z p (sext16 off) := by
  generalize hw : 0x0#4 ++ BitVec.ofBool n ++ BitVec.ofBool z ++ BitVec.ofBool p ++ off = w
  have hn := congrArg BitVec.toNat hw
  simp only [toNat_concat, BitVec.toNat_ofNat, BitVec.toNat_ofBool] at hn
  have hoff := off.isLt
  have := Bool.toNat_lt n; have := Bool.toNat_lt z; have := Bool.toNat_lt p
  have hop : opcodeOf (bits w 15 12) = .br := opcodeOf_eq 0 (by omega) rfl
  have b11 : bit w 11 = n := bit_eq_of (by omega)
  have b10 : bit w 10 = z := bit_eq_of (by omega)
  have b9 : bit w 9 = p := bit_eq_of (by omega)
  have f8 : bits w 8 0 = off := bits_eq_of (by omega)
  simp [decode, hop, b11, b10, b9, f8]

theorem decode_addReg (dr sr1 sr2 : RegIdx) (x : BitVec 2) :
    decode (0x1#4 ++ regBits dr ++ regBits sr1 ++ 0b0#1 ++ x ++ regBits sr2) = .addReg dr sr1 sr2 := by
  generalize hw : 0x1#4 ++ regBits dr ++ regBits sr1 ++ 0b0#1 ++ x ++ regBits sr2 = w
  have hn := congrArg BitVec.toNat hw
  simp only [toNat_concat, toNat_regBits, BitVec.toNat_ofNat] at hn
  have hx := x.isLt
  have hop : opcodeOf (bits w 15 12) = .add := opcodeOf_eq 1 (by omega) rfl
  have b5 : bit w 5 = false := bit_eq_of (by simp only [Bool.toNat_false]; omega)
  have f11 : bits w 11 9 = regBits dr := bits_eq_of (by simp only [toNat_regBits]; omega)
  have f8 : bits w 8 6 = regBits sr1 := bits_eq_of (by simp only [toNat_regBits]; omega)
  have f2 : bits w 2 0 = regBits sr2 := bits_eq_of (by simp only [toNat_regBits]; omega)
  simp [decode, hop, b5, f11, f8, f2]

theorem decode_addImm (dr sr1 : RegIdx) (imm : BitVec 5) :
    decode (0x1#4 ++ regBits dr ++ regBits sr1 ++ 0b1#1 ++ imm) = .addImm dr sr1 (sext16 imm) := by
  generalize hw : 0x1#4 ++ regBits dr ++ regBits sr1 ++ 0b1#1 ++ imm = w
  have hn := congrArg BitVec.toNat hw
  simp only [toNat_concat, toNat_regBits, BitVec.toNat_ofNat] at hn
  have himm := imm.isLt
  have hop : opcodeOf (bits w 15 12) = .add := opcodeOf_eq 1 (by omega) rfl
  have b5 : bit w 5 = true := bit_eq_of (by simp only [Bool.toNat_true]; omega)
  have f11 : bits w 11 9 = regBits dr := bits_eq_of (by simp only [toNat_regBits]; omega)
  have f8 : bits w 8 6 = regBits sr1 := bits_eq_of (by simp only [toNat_regBits]; omega)
  have f4 : bits w 4 0 = imm := bits_eq_of (by omega)
  simp [decode, hop, b5, f11, f8, f4]

theorem decode_ld (dr : RegIdx) (off : BitVec 9) :
    decode (0x2#4 ++ regBits dr ++ off) = .ld dr (sext16 off) := by
  generalize hw : 0x2#4 ++ regBits dr ++ off = w
  have hn := congrArg BitVec.toNat hw
  simp only [toNat_concat, toNat_regBits, BitVec.toNat_ofNat] at hn
  have hoff := off.isLt
  have hop : opcodeOf (bits w 15 12) = .ld := opcodeOf_eq 2 (by omega) rfl
  have f11 : bits w 11 9 = regBits dr := bits_eq_of (by simp only [toNat_regBits]; omega)
  have f8 : bits w 8 0 = off := bits_eq_of (by omega)
  simp [decode, hop, f11, f8]

theorem decode_st (sr : RegIdx) (off : BitVec 9) :
    decode (0x3#4 ++ regBits sr ++ off) = .st sr (sext16 off) := by
  generalize hw : 0x3#4 ++ regBits sr ++ off = w
  have hn := congrArg BitVec.toNat hw
  simp only [toNat_concat, toNat_regBits, BitVec.toNat_ofNat] at hn
  have hoff := off.isLt
  have hop : opcodeOf (bits w 15 12) = .st := opcodeOf_eq 3 (by omega) rfl
  have f11 : bits w 11 9 = regBits sr := bits_eq_of (by simp only [toNat_regBits]; omega)
  have f8 : bits w 8 0 = off := bits_eq_of (by omega)
  simp [decode, hop, f11, f8]

theorem decode_jsrr (base : RegIdx) (x : BitVec 2) (y : BitVec 6) :
    decode (0x4#4 ++ 0b0#1 ++ x ++ regBits base ++ y) = .jsrr base := by
  generalize hw : 0x4#4 ++ 0b0#1 ++ x ++ regBits base ++ y = w
  have hn := congrArg BitVec.toNat hw
  simp only [toNat_concat, toNat_regBits, BitVec.toNat_ofNat] at hn
  have hx := x.isLt
  have hy := y.isLt
  have hop : opcodeOf (bits w 15 12) = .jsr := opcodeOf_eq 4 (by omega) rfl
  have b11 : bit w 11 = false := bit_eq_of (by simp only [Bool.toNat_false]; omega)
  have f8 : bits w 8 6 = regBits base := bits_eq_of (by simp only [toNat_regBits]; omega)
  simp [decode, hop, b11, f8]

theorem decode_jsr (off : BitVec 11) :
    decode (0x4#4 ++ 0b1#1 ++ off) = .jsr (sext16 off) := by
  generalize hw : 0x4#4 ++ 0b1#1 ++ off = w
  have hn := congrArg BitVec.toNat hw
  simp only [toNat_concat, BitVec.toNat_ofNat] at hn
  have hoff := off.isLt
  have hop : opcodeOf (bits w 15 12) = .jsr := opcodeOf_eq 4 (by omega) rfl
  have b11 : bit w 11 = true := bit_eq_of (by simp only [Bool.toNat_true]; omega)
  have f10 : bits w 10 0 = off := bits_eq_of (by omega)
  simp [decode, hop, b11, f10]

theorem decode_andReg (dr sr1 sr2 : RegIdx) (x : BitVec 2) :
    decode (0x5#4 ++ regBits dr ++ regBits sr1 ++ 0b0#1 ++ x ++ regBits sr2) = .andReg dr sr1 sr2 := by
  generalize hw : 0x5#4 ++ regBits dr ++ regBits sr1 ++ 0b0#1 ++ x ++ regBits sr2 = w
  have hn := congrArg BitVec.toNat hw
  simp only [toNat_concat, toNat_regBits, BitVec.toNat_ofNat] at hn
  have hx := x.isLt
  have hop : opcodeOf (bits w 15 12) = .and := opcodeOf_eq 5 (by omega) rfl
  have b5 : bit w 5 = false := bit_eq_of (by simp only [Bool.toNat_false]; omega)
  have f11 : bits w 11 9 = regBits dr := bits_eq_of (by simp only [toNat_regBits]; omega)
  have f8 : bits w 8 6 = regBits sr1 := bits_eq_of (by simp only [toNat_regBits]; omega)
  have f2 : bits w 2 0 = regBits sr2 := bits_eq_of (by simp only [toNat_regBits]; omega)
  simp [decode, hop, b5, f11, f8, f2]

theorem decode_andImm (dr sr1 : RegIdx) (imm : BitVec 5) :
    decode (0x5#4 ++ regBits dr ++ regBits sr1 ++ 0b1#1 ++ imm) = .andImm dr sr1 (sext16 imm) := by
  generalize hw : 0x5#4 ++ regBits dr ++ regBits sr1 ++ 0b1#1 ++ imm = w
  have hn := congrArg BitVec.toNat hw
  simp only [toNat_concat, toNat_regBits, BitVec.toNat_ofNat] at hn
  have himm := imm.isLt
  have hop : opcodeOf (bits w 15 12) = .and := opcodeOf_eq 5 (by omega) rfl
  have b5 : bit w 5 = true := bit_eq_of (by simp only [Bool.toNat_true]; omega)
  have f11 : bits w 11 9 = regBits dr := bits_eq_of (by simp only [toNat_regBits]; omega)
  have f8 : bits w 8 6 = regBits sr1 := bits_eq_of (by simp only [toNat_regBits]; omega)
  have f4 : bits w 4 0 = imm := bits_eq_of (by omega)
  simp [decode, hop, b5, f11, f8, f4]

theorem decode_ldr (dr base : RegIdx) (off : BitVec 6) :
    decode (0x6#4 ++ regBits dr ++ regBits base ++ off) = .ldr dr base (sext16 off) := by
  generalize hw : 0x6#4 ++ regBits dr ++ regBits base ++ off = w
  have hn := congrArg BitVec.toNat hw
  simp only [toNat_concat, toNat_regBits, BitVec.toNat_ofNat] at hn
  have hoff := off.isLt
  have hop : opcodeOf (bits w 15 12) = .ldr := opcodeOf_eq 6 (by omega) rfl
  have f11 : bits w 11 9 = regBits dr := bits_eq_of (by simp only [toNat_regBits]; omega)
  have f8 : bits w 8 6 = regBits base := bits_eq_of (by simp only [toNat_regBits]; omega)
  have f5 : bits w 5 0 = off := bits_eq_of (by omega)
  simp [decode, hop, f11, f8, f5]

theorem decode_str (sr base : RegIdx) (off : BitVec 6) :
    decode (0x7#4 ++ regBits sr ++ regBits base ++ off) = .str sr base (sext16 off) := by
  generalize hw : 0x7#4 ++ regBits sr ++ regBits base ++ off = w
  have hn := congrArg BitVec.toNat hw
  simp only [toNat_concat, toNat_regBits, BitVec.toNat_ofNat] at hn
  have hoff := off.isLt
  have hop : opcodeOf (bits w 15 12) = .str := opcodeOf_eq 7 (by omega) rfl
  have f11 : bits w 11 9 = regBits sr := bits_eq_of (by simp only [toNat_regBits]; omega)
  have f8 : bits w 8 6 = regBits base := bits_eq_of (by simp only [toNat_regBits]; omega)
  have f5 : bits w 5 0 = off := bits_eq_of (by omega)
  simp [decode, hop, f11, f8, f5]

theorem decode_rti (x : BitVec 12) :
    decode (0x8#4 ++ x) = .rti := by
  generalize hw : 0x8#4 ++ x = w
  have hn := congrArg BitVec.toNat hw
  simp only [toNat_concat, BitVec.toNat_ofNat] at hn
  have hx := x.isLt
  have hop : opcodeOf (bits w 15 12) = .rti := opcodeOf_eq 8 (by omega) rfl
  simp [decode, hop]

theorem decode_notReg (dr sr : RegIdx) (x : BitVec 6) :
    decode (0x9#4 ++ regBits dr ++ regBits sr ++ x) = .notReg dr sr := by
  generalize hw : 0x9#4 ++ regBits dr ++ regBits sr ++ x = w
  have hn := congrArg BitVec.toNat hw
  simp only [toNat_concat, toNat_regBits, BitVec.toNat_ofNat] at hn
  have hx := x.isLt
  have hop : opcodeOf (bits w 15 12) = .not := opcodeOf_eq 9 (by omega) rfl
  have f11 : bits w 11 9 = regBits dr := bits_eq_of (by simp only [toNat_regBits]; omega)
  have f8 : bits w 8 6 = regBits sr := bits_eq_of (by simp only [toNat_regBits]; omega)
  simp [decode, hop, f11, f8]

theorem decode_ldi (dr : RegIdx) (off : BitVec 9) :
    decode (0xA#4 ++ regBits dr ++ off) = .ldi dr (sext16 off) := by
  generalize hw : 0xA#4 ++ regBits dr ++ off = w
  have hn := congrArg BitVec.toNat hw
  simp only [toNat_concat, toNat_regBits, BitVec.toNat_ofNat] at hn
  have hoff := off.isLt
  have hop : opcodeOf (bits w 15 12) = .ldi := opcodeOf_eq 10 (by omega) rfl
  have f11 : bits w 11 9 = regBits dr := bits_eq_of (by simp only [toNat_regBits]; omega)
  have f8 : bits w 8 0 = off := bits_eq_of (by omega)
  simp [decode, hop, f11, f8]

theorem decode_sti (sr : RegIdx) (off : BitVec 9) :
    decode (0xB#4 ++ regBits sr ++ off) = .sti sr (sext16 off) := by
  generalize hw : 0xB#4 ++ regBits sr ++ off = w
  have hn := congrArg BitVec.toNat hw
  simp only [toNat_concat, toNat_regBits, BitVec.toNat_ofNat] at hn
  have hoff := off.isLt
  have hop : opcodeOf (bits w 15 12) = .sti := opcodeOf_eq 11 (by omega) rfl
  have f11 : bits w 11 9 = regBits sr := bits_eq_of (by simp only [toNat_regBits]; omega)
  have f8 : bits w 8 0 = off := bits_eq_of (by omega)
  simp [decode, hop, f11, f8]

theorem decode_jmp (x : BitVec 3) (base : RegIdx) (y : BitVec 6) :
    decode (0xC#4 ++ x ++ regBits base ++ y) = .jmp base := by
  generalize hw : 0xC#4 ++ x ++ regBits base ++ y = w
  have hn := congrArg BitVec.toNat hw
  simp only [toNat_concat, toNat_regBits, BitVec.toNat_ofNat] at hn
  have hx := x.isLt
  have hy := y.isLt
  have hop : opcodeOf (bits w 15 12) = .jmp := opcodeOf_eq 12 (by omega) rfl
  have f8 : bits w 8 6 = regBits base := bits_eq_of (by simp only [toNat_regBits]; omega)
  simp [decode, hop, f8]

theorem decode_res (x : BitVec 12) :
    decode (0xD#4 ++ x) = .res := by
  generalize hw : 0xD#4 ++ x = w
  have hn := congrArg BitVec.toNat hw
  simp only [toNat_concat, BitVec.toNat_ofNat] at hn
  have hx := x.isLt
  have hop : opcodeOf (bits w 15 12) = .res := opcodeOf_eq 13 (by omega) rfl
  simp [decode, hop]

theorem decode_lea (dr : RegIdx) (off : BitVec 9) :
    decode (0xE#4 ++ regBits dr ++ off) = .lea dr (sext16 off) := by
  generalize hw : 0xE#4 ++ regBits dr ++ off = w
  have hn := congrArg BitVec.toNat hw
  simp only [toNat_concat, toNat_regBits, BitVec.toNat_ofNat] at hn
  have hoff := off.isLt
  have hop : opcodeOf (bits w 15 12) = .lea := opcodeOf_eq 14 (by omega) rfl
  have f11 : bits w 11 9 = regBits dr := bits_eq_of (by simp only [toNat_regBits]; omega)
  have f8 : bits w 8 0 = off := bits_eq_of (by omega)
  simp [decode, hop, f11, f8]

theorem decode_trap (x : BitVec 4) (vector : BitVec 8) :
    decode (0xF#4 ++ x ++ vector) = .trap vector := by
  generalize hw : 0xF#4 ++ x ++ vector = w
  have hn := congrArg BitVec.toNat hw
  simp only [toNat_concat, BitVec.toNat_ofNat] at hn
  have hx := x.isLt
  have hvector := vector.isLt
  have hop : opcodeOf (bits w 15 12) = .trap := opcodeOf_eq 15 (by omega) rfl
  have f7 : bits w 7 0 = vector := bits_eq_of (by omega)
  simp [decode, hop, f7]

end Sys2Proof
end

