-- ==== Sys2Proof/Laws/State.lean ====
section
/-! SUPPORT. What each update of the state does to each field, and to a register or a memory word as they are
read: one lemma each, so that no proof unfolds a record update. -/

namespace Sys2Proof.Machine

/-! ### Fields -/

@[simp] theorem State.setReg_regs (s : State) (r : RegIdx) (v : Word) : (s.setReg r v).regs = s.regs.set r v := rfl
@[simp] theorem State.setReg_pc (s : State) (r : RegIdx) (v : Word) : (s.setReg r v).pc = s.pc := rfl
@[simp] theorem State.setReg_cond (s : State) (r : RegIdx) (v : Word) : (s.setReg r v).cond = s.cond := rfl
@[simp] theorem State.setReg_mem (s : State) (r : RegIdx) (v : Word) : (s.setReg r v).mem = s.mem := rfl
@[simp] theorem State.setReg_trapPresent (s : State) (r : RegIdx) (v : Word) : (s.setReg r v).trapPresent = s.trapPresent := rfl
@[simp] theorem State.setReg_supPresent (s : State) (r : RegIdx) (v : Word) : (s.setReg r v).supPresent = s.supPresent := rfl
@[simp] theorem State.setReg_trapFeed (s : State) (r : RegIdx) (v : Word) : (s.setReg r v).trapFeed = s.trapFeed := rfl
@[simp] theorem State.setReg_supFeed (s : State) (r : RegIdx) (v : Word) : (s.setReg r v).supFeed = s.supFeed := rfl

@[simp] theorem State.setPc_regs (s : State) (v : Word) : (s.setPc v).regs = s.regs := rfl
@[simp] theorem State.setPc_pc (s : State) (v : Word) : (s.setPc v).pc = v := rfl
@[simp] theorem State.setPc_cond (s : State) (v : Word) : (s.setPc v).cond = s.cond := rfl
@[simp] theorem State.setPc_mem (s : State) (v : Word) : (s.setPc v).mem = s.mem := rfl
@[simp] theorem State.setPc_trapPresent (s : State) (v : Word) : (s.setPc v).trapPresent = s.trapPresent := rfl
@[simp] theorem State.setPc_supPresent (s : State) (v : Word) : (s.setPc v).supPresent = s.supPresent := rfl
@[simp] theorem State.setPc_trapFeed (s : State) (v : Word) : (s.setPc v).trapFeed = s.trapFeed := rfl
@[simp] theorem State.setPc_supFeed (s : State) (v : Word) : (s.setPc v).supFeed = s.supFeed := rfl

@[simp] theorem State.setCond_regs (s : State) (c : Cond) : (s.setCond c).regs = s.regs := rfl
@[simp] theorem State.setCond_pc (s : State) (c : Cond) : (s.setCond c).pc = s.pc := rfl
@[simp] theorem State.setCond_cond (s : State) (c : Cond) : (s.setCond c).cond = c := rfl
@[simp] theorem State.setCond_mem (s : State) (c : Cond) : (s.setCond c).mem = s.mem := rfl
@[simp] theorem State.setCond_trapPresent (s : State) (c : Cond) : (s.setCond c).trapPresent = s.trapPresent := rfl
@[simp] theorem State.setCond_supPresent (s : State) (c : Cond) : (s.setCond c).supPresent = s.supPresent := rfl
@[simp] theorem State.setCond_trapFeed (s : State) (c : Cond) : (s.setCond c).trapFeed = s.trapFeed := rfl
@[simp] theorem State.setCond_supFeed (s : State) (c : Cond) : (s.setCond c).supFeed = s.supFeed := rfl

@[simp] theorem State.write_regs (s : State) (a v : Word) : (s.write a v).regs = s.regs := rfl
@[simp] theorem State.write_pc (s : State) (a v : Word) : (s.write a v).pc = s.pc := rfl
@[simp] theorem State.write_cond (s : State) (a v : Word) : (s.write a v).cond = s.cond := rfl
@[simp] theorem State.write_mem (s : State) (a v : Word) : (s.write a v).mem = Memory.write s.mem a v := rfl
@[simp] theorem State.write_trapPresent (s : State) (a v : Word) : (s.write a v).trapPresent = s.trapPresent := rfl
@[simp] theorem State.write_supPresent (s : State) (a v : Word) : (s.write a v).supPresent = s.supPresent := rfl
@[simp] theorem State.write_trapFeed (s : State) (a v : Word) : (s.write a v).trapFeed = s.trapFeed := rfl
@[simp] theorem State.write_supFeed (s : State) (a v : Word) : (s.write a v).supFeed = s.supFeed := rfl

/-! ### Registers and memory words as they are read -/

@[simp] theorem State.setReg_reg_same (s : State) (r : RegIdx) (v : Word) : (s.setReg r v).reg r = v := by
  simp [State.reg]

@[simp] theorem State.setReg_reg_ne (s : State) {r d : RegIdx} (v : Word) (h : r ≠ d) :
    (s.setReg d v).reg r = s.reg r := by
  have : d.val ≠ r.val := fun e => h (Fin.ext e.symm)
  simp [State.reg, Vector.getElem_set_ne, this]

@[simp] theorem State.setPc_reg (s : State) (v : Word) (r : RegIdx) : (s.setPc v).reg r = s.reg r := rfl
@[simp] theorem State.setCond_reg (s : State) (c : Cond) (r : RegIdx) : (s.setCond c).reg r = s.reg r := rfl
@[simp] theorem State.write_reg (s : State) (a v : Word) (r : RegIdx) : (s.write a v).reg r = s.reg r := rfl

@[simp] theorem State.setReg_read (s : State) (r : RegIdx) (v a : Word) : (s.setReg r v).read a = s.read a := rfl
@[simp] theorem State.setPc_read (s : State) (v a : Word) : (s.setPc v).read a = s.read a := rfl
@[simp] theorem State.setCond_read (s : State) (c : Cond) (a : Word) : (s.setCond c).read a = s.read a := rfl

/-! ### The common part of a cycle -/

@[simp] theorem State.advance_regs (s : State) : s.advance.regs = s.regs := rfl
@[simp] theorem State.advance_pc (s : State) : s.advance.pc = s.pc + 1 := rfl
@[simp] theorem State.advance_cond (s : State) : s.advance.cond = s.cond := rfl
@[simp] theorem State.advance_mem (s : State) : s.advance.mem = s.mem := rfl
@[simp] theorem State.advance_trapPresent (s : State) : s.advance.trapPresent = s.trapPresent := rfl
@[simp] theorem State.advance_supPresent (s : State) : s.advance.supPresent = s.supPresent := rfl
@[simp] theorem State.advance_trapFeed (s : State) : s.advance.trapFeed = s.trapFeed := rfl
@[simp] theorem State.advance_supFeed (s : State) : s.advance.supFeed = s.supFeed := rfl
@[simp] theorem State.advance_reg (s : State) (r : RegIdx) : s.advance.reg r = s.reg r := rfl
@[simp] theorem State.advance_read (s : State) (a : Word) : s.advance.read a = s.read a := rfl

@[simp] theorem State.linkPc_pc (s : State) : s.linkPc.pc = s.pc := rfl
@[simp] theorem State.linkPc_cond (s : State) : s.linkPc.cond = s.cond := rfl
@[simp] theorem State.linkPc_mem (s : State) : s.linkPc.mem = s.mem := rfl
@[simp] theorem State.linkPc_trapPresent (s : State) : s.linkPc.trapPresent = s.trapPresent := rfl
@[simp] theorem State.linkPc_supPresent (s : State) : s.linkPc.supPresent = s.supPresent := rfl
@[simp] theorem State.linkPc_trapFeed (s : State) : s.linkPc.trapFeed = s.trapFeed := rfl
@[simp] theorem State.linkPc_supFeed (s : State) : s.linkPc.supFeed = s.supFeed := rfl
@[simp] theorem State.linkPc_read (s : State) (a : Word) : s.linkPc.read a = s.read a := rfl

/-- The link register holds the PC (10_state R24). -/
@[simp] theorem State.linkPc_reg_link (s : State) : s.linkPc.reg Config.link = s.pc :=
  s.setReg_reg_same Config.link s.pc

theorem State.linkPc_reg_ne (s : State) {r : RegIdx} (h : r ≠ Config.link) : s.linkPc.reg r = s.reg r :=
  s.setReg_reg_ne s.pc h

/-! ### The destination write of a flag-affecting instruction -/

@[simp] theorem State.writeResult_pc (s : State) (d : RegIdx) (v : Word) : (s.writeResult d v).pc = s.pc := rfl
@[simp] theorem State.writeResult_mem (s : State) (d : RegIdx) (v : Word) : (s.writeResult d v).mem = s.mem := rfl
@[simp] theorem State.writeResult_trapPresent (s : State) (d : RegIdx) (v : Word) :
    (s.writeResult d v).trapPresent = s.trapPresent := rfl
@[simp] theorem State.writeResult_supPresent (s : State) (d : RegIdx) (v : Word) :
    (s.writeResult d v).supPresent = s.supPresent := rfl
@[simp] theorem State.writeResult_trapFeed (s : State) (d : RegIdx) (v : Word) :
    (s.writeResult d v).trapFeed = s.trapFeed := rfl
@[simp] theorem State.writeResult_supFeed (s : State) (d : RegIdx) (v : Word) :
    (s.writeResult d v).supFeed = s.supFeed := rfl
@[simp] theorem State.writeResult_read (s : State) (d : RegIdx) (v a : Word) :
    (s.writeResult d v).read a = s.read a := rfl

/-- The flag is that of the value written (10_state R33). -/
@[simp] theorem State.writeResult_cond (s : State) (d : RegIdx) (v : Word) :
    (s.writeResult d v).cond = cc v := by
  simp [State.writeResult, State.updateFlags]

@[simp] theorem State.writeResult_reg_same (s : State) (d : RegIdx) (v : Word) :
    (s.writeResult d v).reg d = v := s.setReg_reg_same d v

@[simp] theorem State.writeResult_reg_ne (s : State) {r d : RegIdx} (v : Word) (h : r ≠ d) :
    (s.writeResult d v).reg r = s.reg r := s.setReg_reg_ne v h

/-! ### The host's installation of collaborators touches no architectural state -/

@[simp] theorem State.install_pc (s : State) (c : Instance) : (s.install c).pc = s.pc := rfl
@[simp] theorem State.install_cond (s : State) (c : Instance) : (s.install c).cond = s.cond := rfl
@[simp] theorem State.install_mem (s : State) (c : Instance) : (s.install c).mem = s.mem := rfl
@[simp] theorem State.install_reg (s : State) (c : Instance) (r : RegIdx) : (s.install c).reg r = s.reg r := rfl
@[simp] theorem State.install_read (s : State) (c : Instance) (a : Word) : (s.install c).read a = s.read a := rfl

/-! ### Peeks -/

@[simp] theorem State.snapshot_regs (s : State) : s.snapshot.regs = s.regs := rfl
@[simp] theorem State.snapshot_pc (s : State) : s.snapshot.pc = s.pc := rfl
@[simp] theorem State.snapshot_cond (s : State) : s.snapshot.cond = s.cond := rfl
@[simp] theorem State.snapshot_mem (s : State) : s.snapshot.mem = s.mem := rfl
@[simp] theorem State.peek_reg (s : State) (r : RegIdx) : s.peek (.reg r) = .word (s.reg r) := rfl
@[simp] theorem State.peek_pc (s : State) : s.peek .pc = .word s.pc := rfl
@[simp] theorem State.peek_cond (s : State) : s.peek .cond = .flag s.cond := rfl
@[simp] theorem State.peek_mem (s : State) (a : Word) : s.peek (.mem a) = .word (s.read a) := rfl

/-! ### Collaborators -/

@[simp] theorem Feed.next_turns (f : Feed) : f.next.turns = f.turns.tail := rfl
@[simp] theorem Feed.next_rest (f : Feed) : f.next.rest = f.rest := rfl
@[simp] theorem Feed.next_dispatched (f : Feed) : f.next.dispatched = f.dispatched + 1 := rfl
@[simp] theorem Turn.answer_free (who n : Nat) (c : Call) (m : Snapshot) :
    (Turn.free who).answer n c m = Config.freeAnswer who n c m := rfl
@[simp] theorem Turn.answer_table_nil (a : Answer) (n : Nat) (c : Call) (m : Snapshot) :
    (Turn.table [] a).answer n c m = a := rfl

end Sys2Proof.Machine
end

