-- ==== Sys2Proof/Laws/Ops.lean ====
section
/-! SUPPORT. What the shared operations do, said once: memory reads and writes, pokes, and the end of a
dispatch. -/

namespace Sys2Proof.Machine

/-! ### Memory -/

theorem Memory.get_erase_same (m : Memory) (a : Nat) : Memory.get (Memory.erase m a) a = Config.emptyWord := by
  induction m with
  | nil => rfl
  | cons c m ih =>
    obtain ⟨k, v⟩ := c
    by_cases h : k = a
    · simpa [Memory.erase, h] using ih
    · simpa [Memory.erase, h, Memory.get] using ih

theorem Memory.get_erase_ne (m : Memory) {a b : Nat} (h : b ≠ a) :
    Memory.get (Memory.erase m a) b = Memory.get m b := by
  induction m with
  | nil => rfl
  | cons c m ih =>
    obtain ⟨k, v⟩ := c
    by_cases hk : k = a
    · have : a ≠ b := fun e => h e.symm
      simpa [Memory.erase, hk, Memory.get, this] using ih
    · by_cases hb : k = b
      · simp [Memory.erase, Memory.get, hb, h]
      · simpa [Memory.erase, hk, Memory.get, hb] using ih

theorem Memory.get_insert_same {m : Memory} {a : Nat} (v : Word) (h : ∀ c ∈ m, c.1 ≠ a) :
    Memory.get (Memory.insert m a v) a = v := by
  induction m with
  | nil => simp [Memory.insert, Memory.get]
  | cons c m ih =>
    obtain ⟨k, w⟩ := c
    have hk : k ≠ a := h (k, w) (by simp)
    have ih := ih (fun c hc => h c (List.mem_cons_of_mem _ hc))
    by_cases hlt : a < k
    · simp [Memory.insert, hlt, Memory.get]
    · simpa [Memory.insert, hlt, Memory.get, hk] using ih

theorem Memory.get_insert_ne (m : Memory) {a b : Nat} (v : Word) (h : b ≠ a) :
    Memory.get (Memory.insert m a v) b = Memory.get m b := by
  have h' : a ≠ b := fun e => h e.symm
  induction m with
  | nil => simp [Memory.insert, Memory.get, h']
  | cons c m ih =>
    obtain ⟨k, w⟩ := c
    by_cases hlt : a < k
    · simp [Memory.insert, hlt, Memory.get, h']
    · simp [Memory.insert, hlt, Memory.get, ih]

theorem Memory.erase_ne (m : Memory) (a : Nat) : ∀ c ∈ Memory.erase m a, c.1 ≠ a := by
  intro c hc
  simpa using (List.mem_filter.mp hc).2

/-- A read after a write to the same address gives the value written (20_memory R42). -/
@[simp] theorem Memory.read_write_same (m : Memory) (a v : Word) :
    Memory.read (Memory.write m a v) a = v := by
  unfold Memory.read Memory.write
  split
  · next h => rw [Memory.get_erase_same, h]
  · exact Memory.get_insert_same v (Memory.erase_ne m a.toNat)

/-- A write changes no other word (20_memory R42). -/
theorem Memory.read_write_ne (m : Memory) {a b : Word} (v : Word) (h : b ≠ a) :
    Memory.read (Memory.write m a v) b = Memory.read m b := by
  have hn : b.toNat ≠ a.toNat := fun e => h (BitVec.eq_of_toNat_eq e)
  unfold Memory.read Memory.write
  split
  · exact Memory.get_erase_ne m hn
  · rw [Memory.get_insert_ne _ v hn, Memory.get_erase_ne m hn]

/-- The canonical form, unfolded. -/
theorem Memory.wf_iff (m : Memory) : Memory.wf m = true ↔
    m.Pairwise (fun c d => c.1 < d.1) ∧ ∀ c ∈ m, c.1 < 65536 ∧ c.2 ≠ Config.emptyWord := by
  simp [Memory.wf]

theorem Memory.wf_nil : Memory.wf [] = true := rfl

theorem Memory.wf_erase {m : Memory} (h : Memory.wf m = true) (a : Nat) : Memory.wf (Memory.erase m a) = true := by
  rw [Memory.wf_iff] at h ⊢
  exact ⟨h.1.filter _, fun c hc => h.2 c (List.mem_filter.mp hc).1⟩

theorem Memory.mem_insert {m : Memory} {a : Nat} {v : Word} {c : Nat × Word} :
    c ∈ Memory.insert m a v ↔ c = (a, v) ∨ c ∈ m := by
  induction m with
  | nil => simp [Memory.insert]
  | cons d m ih =>
    obtain ⟨k, w⟩ := d
    by_cases hlt : a < k
    · simp [Memory.insert, hlt]
    · simp only [Memory.insert, hlt, if_false, List.mem_cons, ih]; tauto

theorem Memory.pairwise_insert {m : Memory} {a : Nat} (v : Word) (hm : ∀ c ∈ m, c.1 ≠ a)
    (h : m.Pairwise (fun c d => c.1 < d.1)) : (Memory.insert m a v).Pairwise (fun c d => c.1 < d.1) := by
  induction m with
  | nil => simp [Memory.insert]
  | cons c m ih =>
    obtain ⟨k, w⟩ := c
    rw [List.pairwise_cons] at h
    by_cases hlt : a < k
    · simp only [Memory.insert, hlt, if_true, List.pairwise_cons]
      refine ⟨fun d hd => ?_, h⟩
      rcases List.mem_cons.mp hd with rfl | hd
      · exact hlt
      · exact hlt.trans (h.1 d hd)
    · simp only [Memory.insert, hlt, if_false, List.pairwise_cons]
      refine ⟨fun d hd => ?_, ih (fun c hc => hm c (List.mem_cons_of_mem _ hc)) h.2⟩
      have hk : k ≠ a := hm (k, w) (by simp)
      rcases Memory.mem_insert.mp hd with rfl | hd
      · change k < a; omega
      · exact h.1 d hd

/-- A write keeps the canonical form. -/
theorem Memory.wf_write {m : Memory} (h : Memory.wf m = true) (a v : Word) :
    Memory.wf (Memory.write m a v) = true := by
  unfold Memory.write
  split
  · exact Memory.wf_erase h _
  · next hv =>
    have he := (Memory.wf_iff _).mp (Memory.wf_erase h a.toNat)
    rw [Memory.wf_iff]
    refine ⟨Memory.pairwise_insert v (Memory.erase_ne m a.toNat) he.1, fun c hc => ?_⟩
    rcases Memory.mem_insert.mp hc with rfl | hc
    · exact ⟨a.isLt, hv⟩
    · exact he.2 c hc

/-! ### The same on the state -/

@[simp] theorem State.read_write_same (s : State) (a v : Word) : (s.write a v).read a = v :=
  Memory.read_write_same s.mem a v

@[simp] theorem State.read_write_ne (s : State) {a b : Word} (v : Word) (h : b ≠ a) :
    (s.write a v).read b = s.read b := Memory.read_write_ne s.mem v h

/-! ### Pokes -/

/-- A poke keeps the canonical form of memory. -/
theorem State.poke_wf (s : State) (p : Poke) (h : Memory.wf s.mem = true) : Memory.wf (s.poke p).mem = true := by
  cases p with
  | reg r v => exact h
  | pc v => exact h
  | cond c => exact h
  | mem a v => exact Memory.wf_write h a v

/-- Pokes keep the canonical form of memory. -/
theorem State.pokes_wf (s : State) (ps : List Poke) (h : Memory.wf s.mem = true) :
    Memory.wf (s.pokes ps).mem = true := by
  induction ps generalizing s with
  | nil => exact h
  | cons p ps ih => exact ih (s.poke p) (s.poke_wf p h)

/-- Pokes reach neither the configuration nor the environment. -/
theorem State.pokes_instance (s : State) (ps : List Poke) :
    (s.pokes ps).trapPresent = s.trapPresent ∧ (s.pokes ps).supPresent = s.supPresent ∧
    (s.pokes ps).trapFeed = s.trapFeed ∧ (s.pokes ps).supFeed = s.supFeed := by
  induction ps generalizing s with
  | nil => exact ⟨rfl, rfl, rfl, rfl⟩
  | cons p ps ih =>
    have hp : (s.poke p).trapPresent = s.trapPresent ∧ (s.poke p).supPresent = s.supPresent ∧
        (s.poke p).trapFeed = s.trapFeed ∧ (s.poke p).supFeed = s.supFeed := by
      cases p <;> exact ⟨rfl, rfl, rfl, rfl⟩
    obtain ⟨a, b, c, d⟩ := ih (s.poke p)
    exact ⟨a.trans hp.1, b.trans hp.2.1, c.trans hp.2.2.1, d.trans hp.2.2.2⟩

theorem State.pokes_append (s : State) (ps qs : List Poke) : s.pokes (ps ++ qs) = (s.pokes ps).pokes qs := by
  induction ps generalizing s with
  | nil => rfl
  | cons p ps ih => exact ih (s.poke p)

/-- A register no poke names is as before. -/
theorem State.pokes_reg (s : State) (ps : List Poke) {r : RegIdx} (h : ∀ v, Poke.reg r v ∉ ps) :
    (s.pokes ps).reg r = s.reg r := by
  induction ps generalizing s with
  | nil => rfl
  | cons p ps ih =>
    rw [State.pokes, ih _ (fun v hv => h v (List.mem_cons_of_mem _ hv))]
    cases p with
    | reg d v => exact s.setReg_reg_ne v (fun e => h v (by simp [e]))
    | pc v => rfl
    | cond c => rfl
    | mem a v => rfl

/-- COND is as before if no poke names it. -/
theorem State.pokes_cond (s : State) (ps : List Poke) (h : ∀ c, Poke.cond c ∉ ps) : (s.pokes ps).cond = s.cond := by
  induction ps generalizing s with
  | nil => rfl
  | cons p ps ih =>
    rw [State.pokes, ih _ (fun v hv => h v (List.mem_cons_of_mem _ hv))]
    cases p with
    | reg d v => rfl
    | pc v => rfl
    | cond c => exact absurd (by simp) (h c)
    | mem a v => rfl

/-- After pokes COND is one of the poked values or as before. -/
theorem State.pokes_cond_cases (s : State) (ps : List Poke) :
    Poke.cond (s.pokes ps).cond ∈ ps ∨ (s.pokes ps).cond = s.cond := by
  induction ps generalizing s with
  | nil => exact .inr rfl
  | cons p ps ih =>
    rcases ih (s.poke p) with h | h
    · exact .inl (List.mem_cons_of_mem _ h)
    · cases p with
      | cond c => exact .inl (by rw [State.pokes, h]; simp [State.poke])
      | reg d v => exact .inr h
      | pc v => exact .inr h
      | mem a v => exact .inr h

/-- A memory word no poke names is as before. -/
theorem State.pokes_read (s : State) (ps : List Poke) {a : Word} (h : ∀ v, Poke.mem a v ∉ ps) :
    (s.pokes ps).read a = s.read a := by
  induction ps generalizing s with
  | nil => rfl
  | cons p ps ih =>
    rw [State.pokes, ih _ (fun v hv => h v (List.mem_cons_of_mem _ hv))]
    cases p with
    | reg d v => rfl
    | pc v => rfl
    | cond c => rfl
    | mem b v => exact s.read_write_ne v (fun e => h v (by simp [e]))

/-! ### The end of a dispatch -/

/-- Everything a dispatch can come to (60_exceptions R162, R165). -/
theorem finish_cases (a : Answer) (s : State) :
    (∃ ps, a = .complete ps ∧ finish a s = .next (s.pokes ps)) ∨
    (∃ ps, a = .halt ps ∧ finish a s = .fault (.halted (s.pokes ps))) ∨
    (a = .silent ∧ finish a s = .fault .collaboratorSilent) := by
  cases a with
  | complete ps => exact .inl ⟨ps, rfl, rfl⟩
  | halt ps => exact .inr (.inl ⟨ps, rfl, rfl⟩)
  | silent => exact .inr (.inr ⟨rfl, rfl⟩)

end Sys2Proof.Machine
end

