-- ==== Sys2Proof/Laws/Exec.lean ====
section
/-! SUPPORT. Everything a handler can do, said once: if a cycle of the spec has an outcome, the state it leaves
has one of six shapes. Whole-machine claims are derived from this, not from the handlers. -/

namespace Sys2Proof.Machine

/-- The state in which a collaborator receives the machine: TRAP with the return address in R7, RTI as it was. -/
def handedOver (i : Instr) (s : State) : State :=
  if i.links then { s.linkPc with trapFeed := s.trapFeed.next } else { s with supFeed := s.supFeed.next }

/-- A flag-affecting instruction ends in a destination write. -/
theorem exec_result {i : Instr} {d : RegIdx} (h : i.resultReg = some d) (s : State) :
    ∃ v, exec i s = .next (s.writeResult d v) := by
  cases i <;> simp only [Instr.resultReg, Option.some.injEq, reduceCtorEq] at h <;> subst h <;> exact ⟨_, rfl⟩

/-- A store ends in one memory write. -/
theorem exec_store {i : Instr} {s : State} {ea : Word} {sr : RegIdx} (ha : i.storeAddress s = some ea)
    (hr : i.storeReg = some sr) : exec i s = .next (s.write ea (s.reg sr)) := by
  cases i <;> simp only [Instr.storeReg, Option.some.injEq, reduceCtorEq] at hr <;> subst hr <;>
    simp only [Instr.storeAddress, Option.some.injEq] at ha <;> subst ha <;> rfl

/-- What an ended dispatch reports. -/
theorem report_finish {a : Answer} {s t : State} {o : CycleOutcome} (h : report (finish a s) = some (o, t)) :
    t = s.pokes a.changes ∧ (o = .continued ∨ o = .halt) := by
  cases a <;> simp only [finish, report, Option.some.injEq, Prod.mk.injEq, reduceCtorEq] at h
  · exact ⟨h.2.symm, .inl h.1.symm⟩
  · exact ⟨h.2.symm, .inr h.1.symm⟩

/-- A TRAP with its collaborator installed is a dispatch of the machine with the return address in R7. -/
theorem exec_trap_dispatch {s : State} (h : s.trapPresent = true) (vector : BitVec 8) :
    exec (.trap vector) s = finish (s.trapFeed.answer (.trap vector) s.linkPc.snapshot)
      { s.linkPc with trapFeed := s.trapFeed.next } := by
  simp only [exec, execTrap, h, if_true]; rfl

/-- An RTI with its collaborator installed is a dispatch of the machine as it is. -/
theorem exec_rti_dispatch {s : State} (h : s.supPresent = true) :
    exec .rti s = finish (s.supFeed.answer .rti s.snapshot) { s with supFeed := s.supFeed.next } := by
  simp only [exec, execRti, h, if_true, dispatchSup]

/-- The six shapes of a cycle's end. -/
theorem exec_cases {i : Instr} {s t : State} {o : CycleOutcome} (h : report (exec i s) = some (o, t)) :
    (∃ d v, i.resultReg = some d ∧ i.transfers = false ∧ i.dispatches s = false ∧ o = .continued ∧
      t = s.writeResult d v) ∨
    (∃ ea sr, i.storeAddress s = some ea ∧ i.storeReg = some sr ∧ i.resultReg = none ∧ i.transfers = false ∧
      i.dispatches s = false ∧ o = .continued ∧ t = s.write ea (s.reg sr)) ∨
    (∃ v, i.resultReg = none ∧ i.storeAddress s = none ∧ i.transfers = true ∧ i.links = false ∧
      i.dispatches s = false ∧ o = .continued ∧ t = s.setPc v) ∨
    (∃ v, i.resultReg = none ∧ i.storeAddress s = none ∧ i.transfers = true ∧ i.links = true ∧
      i.dispatches s = false ∧ o = .continued ∧ t = s.linkPc.setPc v) ∨
    (i.resultReg = none ∧ i.storeAddress s = none ∧ i.transfers = true ∧ i.dispatches s = true ∧
      (o = .continued ∨ o = .halt) ∧ t = (handedOver i s).pokes (i.changes s)) ∨
    (∃ r, i.resultReg = none ∧ i.storeAddress s = none ∧ i.dispatches s = false ∧ o = .fault r ∧ t = s) := by
  cases hres : i.resultReg with
  | some d =>
    obtain ⟨v, hv⟩ := exec_result hres s
    rw [hv] at h
    simp only [report, Option.some.injEq, Prod.mk.injEq] at h
    refine .inl ⟨d, v, rfl, ?_, ?_, h.1.symm, h.2.symm⟩ <;> cases i <;> first | rfl | cases hres
  | none =>
    refine .inr ?_
    cases i with
    | addReg | addImm | andReg | andImm | notReg | ld | ldi | ldr | lea => cases hres
    | st | sti | str =>
      simp only [exec, execSt, execSti, execStr, report, Option.some.injEq, Prod.mk.injEq] at h
      exact .inl ⟨_, _, rfl, rfl, rfl, rfl, rfl, h.1.symm, h.2.symm⟩
    | br n z p off =>
      simp only [exec, execBr, report, Option.some.injEq, Prod.mk.injEq] at h
      refine .inr (.inl ⟨if branchTaken n z p s.cond then pcRelative s off else s.pc, rfl, rfl, rfl, rfl, rfl,
        h.1.symm, ?_⟩)
      rw [← h.2]; split <;> rfl
    | jmp =>
      simp only [exec, execJmp, report, Option.some.injEq, Prod.mk.injEq] at h
      exact .inr (.inl ⟨_, rfl, rfl, rfl, rfl, rfl, h.1.symm, h.2.symm⟩)
    | jsr | jsrr =>
      simp only [exec, execJsr, execJsrr, report, Option.some.injEq, Prod.mk.injEq] at h
      exact .inr (.inr (.inl ⟨_, rfl, rfl, rfl, rfl, rfl, h.1.symm, h.2.symm⟩))
    | res =>
      simp only [exec, execRes, raise, report, Option.some.injEq, Prod.mk.injEq] at h
      exact .inr (.inr (.inr (.inr ⟨_, rfl, rfl, rfl, h.1.symm, h.2.symm⟩)))
    | rti =>
      by_cases hp : s.supPresent = true
      · simp only [exec, execRti, hp, if_true, dispatchSup] at h
        obtain ⟨ht, ho⟩ := report_finish h
        refine .inr (.inr (.inr (.inl ⟨rfl, rfl, rfl, hp, ho, ?_⟩)))
        simp only [ht, handedOver, Instr.links, Instr.changes, hp, if_true]; rfl
      · simp only [exec, execRti, hp, raise, report] at h
        obtain ⟨rfl, rfl⟩ : _ ∧ _ := by simpa using h
        exact .inr (.inr (.inr (.inr ⟨_, rfl, rfl, by simpa [Instr.dispatches] using hp, rfl, rfl⟩)))
    | trap v =>
      by_cases hp : s.trapPresent = true
      · simp only [exec, execTrap, hp, if_true, dispatchTrap] at h
        obtain ⟨ht, ho⟩ := report_finish h
        refine .inr (.inr (.inr (.inl ⟨rfl, rfl, rfl, hp, ho, ?_⟩)))
        simp only [ht, handedOver, Instr.links, Instr.changes, hp, if_true]; rfl
      · simp only [exec, execTrap, hp, raise, report] at h
        obtain ⟨rfl, rfl⟩ : _ ∧ _ := by simpa using h
        exact .inr (.inr (.inr (.inr ⟨_, rfl, rfl, by simpa [Instr.dispatches] using hp, rfl, rfl⟩)))

/-! ### What is assumed of a collaborator -/

/-- The assumption speaks of the coming dispatch. -/
theorem Feed.Obeys.now {f : Feed} {relation : Call → Snapshot → Answer → Prop} (h : f.Obeys relation) (c : Call)
    (m : Snapshot) : relation c m (f.answer c m) := h 0 c m

/-- The assumption goes on to hold after a dispatch. -/
theorem Feed.Obeys.next {f : Feed} {relation : Call → Snapshot → Answer → Prop} (h : f.Obeys relation) :
    f.next.Obeys relation := fun j => h (j + 1)

theorem Feed.skip_rest (f : Feed) (j : Nat) : (Feed.skip j f).rest = f.rest := by
  induction j generalizing f with
  | zero => rfl
  | succ j ih => exact ih f.next

theorem Feed.skip_turns (f : Feed) (j : Nat) : (Feed.skip j f).turns = f.turns.drop j := by
  induction j generalizing f with
  | zero => rfl
  | succ j ih => rw [Feed.skip, ih, Feed.next_turns, ← List.drop_one, List.drop_drop, Nat.add_comm]

theorem Feed.skip_dispatched (f : Feed) (j : Nat) : (Feed.skip j f).dispatched = f.dispatched + j := by
  induction j generalizing f with
  | zero => rfl
  | succ j ih => rw [Feed.skip, ih, Feed.next_dispatched]; omega

/-- A collaborator of one turn for ever answers by that turn, at the choice number of the dispatch. -/
theorem Feed.answer_skip_rest (t : Turn) (n j : Nat) (c : Call) (m : Snapshot) :
    (Feed.skip j { turns := [], rest := t, dispatched := n }).answer c m = t.answer (n + j) c m := by
  simp [Feed.answer, Feed.skip_rest, Feed.skip_turns, Feed.skip_dispatched]

/-- A collaborator that is unknown for ever obeys every relation that the unknown answers obey. -/
theorem Feed.free_obeys {who n : Nat} {relation : Call → Snapshot → Answer → Prop}
    (h : ∀ (j : Nat) (c : Call) (m : Snapshot), relation c m (Config.freeAnswer who j c m)) :
    Feed.Obeys { turns := [], rest := .free who, dispatched := n } relation :=
  fun j c m => by rw [Feed.answer_skip_rest]; exact h (n + j) c m

/-- The model puts no law on the answers (60_exceptions R162): any finite sequence of them can be given. -/
theorem Feed.any_answers (l : List Answer) (n j : Nat) (h : j < l.length) (c : Call) (m : Snapshot) (t : Turn) :
    (Feed.skip j { turns := l.map (.table []), rest := t, dispatched := n }).answer c m = l[j] := by
  simp [Feed.answer, Feed.skip_turns, List.headD_eq_head?_getD, h]

end Sys2Proof.Machine
end

