-- ==== Sys2Proof/Laws/PerInstr.lean ====
section
/-! SUPPORT. Statements about every instruction as syntax, one lemma per constructor of Instr. -/

namespace Sys2Proof.Laws.EncodeDecode

/-- A well-formed instruction is what its own word decodes to. -/
def Statement (i : Instr) : Prop := i.wf = true → decode (encode i) = i

theorem br (n z p : Bool) (off : Word) : Statement (.br n z p off) :=
  fun h => (decode_br n z p (field 9 off)).trans (by rw [sext16_field (by decide) (by decide) h])

theorem addReg (dr sr1 sr2 : RegIdx) : Statement (.addReg dr sr1 sr2) :=
  fun _ => decode_addReg dr sr1 sr2 _

theorem addImm (dr sr1 : RegIdx) (imm : Word) : Statement (.addImm dr sr1 imm) :=
  fun h => (decode_addImm dr sr1 (field 5 imm)).trans (by rw [sext16_field (by decide) (by decide) h])

theorem ld (dr : RegIdx) (off : Word) : Statement (.ld dr off) :=
  fun h => (decode_ld dr (field 9 off)).trans (by rw [sext16_field (by decide) (by decide) h])

theorem st (sr : RegIdx) (off : Word) : Statement (.st sr off) :=
  fun h => (decode_st sr (field 9 off)).trans (by rw [sext16_field (by decide) (by decide) h])

theorem jsrr (base : RegIdx) : Statement (.jsrr base) :=
  fun _ => decode_jsrr base _ _

theorem jsr (off : Word) : Statement (.jsr off) :=
  fun h => (decode_jsr (field 11 off)).trans (by rw [sext16_field (by decide) (by decide) h])

theorem andReg (dr sr1 sr2 : RegIdx) : Statement (.andReg dr sr1 sr2) :=
  fun _ => decode_andReg dr sr1 sr2 _

theorem andImm (dr sr1 : RegIdx) (imm : Word) : Statement (.andImm dr sr1 imm) :=
  fun h => (decode_andImm dr sr1 (field 5 imm)).trans (by rw [sext16_field (by decide) (by decide) h])

theorem ldr (dr base : RegIdx) (off : Word) : Statement (.ldr dr base off) :=
  fun h => (decode_ldr dr base (field 6 off)).trans (by rw [sext16_field (by decide) (by decide) h])

theorem str (sr base : RegIdx) (off : Word) : Statement (.str sr base off) :=
  fun h => (decode_str sr base (field 6 off)).trans (by rw [sext16_field (by decide) (by decide) h])

theorem rti : Statement .rti :=
  fun _ => decode_rti _

theorem notReg (dr sr : RegIdx) : Statement (.notReg dr sr) :=
  fun _ => decode_notReg dr sr _

theorem ldi (dr : RegIdx) (off : Word) : Statement (.ldi dr off) :=
  fun h => (decode_ldi dr (field 9 off)).trans (by rw [sext16_field (by decide) (by decide) h])

theorem sti (sr : RegIdx) (off : Word) : Statement (.sti sr off) :=
  fun h => (decode_sti sr (field 9 off)).trans (by rw [sext16_field (by decide) (by decide) h])

theorem jmp (base : RegIdx) : Statement (.jmp base) :=
  fun _ => decode_jmp _ base _

theorem res : Statement .res :=
  fun _ => decode_res _

theorem lea (dr : RegIdx) (off : Word) : Statement (.lea dr off) :=
  fun h => (decode_lea dr (field 9 off)).trans (by rw [sext16_field (by decide) (by decide) h])

theorem trap (vector : BitVec 8) : Statement (.trap vector) :=
  fun _ => decode_trap _ vector

end Sys2Proof.Laws.EncodeDecode
end

