-- ==== Sys2Proof/Laws/Run.lean ====
section
/-! SUPPORT. The run loop, cycle by cycle, and that it is the host's run of the core. -/

namespace Sys2Proof.Machine

@[simp] theorem runLoop_zero (s : State) : runLoop 0 s = .next s := rfl

theorem runLoop_next {k : Nat} {s t : State} (h : step s = .next t) : runLoop (k + 1) s = runLoop k t := by
  rw [runLoop, h]

theorem runLoop_fault {k : Nat} {s : State} {f : Fault} (h : step s = .fault f) : runLoop (k + 1) s = .fault f := by
  rw [runLoop, h]

/-- A machine's run, one cycle off its front. -/
theorem run_succ (M : Host.Core) (k : Nat) (s : M.State) : M.run (k + 1) s =
    match M.step s with
    | .next t => M.run k t
    | .fault f => .fault f
    | .refused r => .refused r := rfl

/-- The model's run loop is the host's. -/
theorem run_eq_runLoop (k : Nat) (s : State) : Host.Core.run core k s = runLoop k s := by
  induction k generalizing s with
  | zero => rfl
  | succ k ih =>
    refine (run_succ core k s).trans ?_
    have hs : core.step s = step s := rfl
    rw [hs, runLoop]
    cases step s with
    | next t => exact ih t
    | fault f => rfl
    | refused r => rfl

end Sys2Proof.Machine
end

