-- ==== Sys2Proof/Tests/Slice0.lean ====
section
/-! SUPPORT. Tests, each on one small state: expected results from the spec's test vectors (95_test_vectors) and
from its rules, never from the model; and a witness for the hypotheses of every statement that has any. -/

namespace Sys2Proof.Tests

open Machine

/-! ### Helpers -/

/-- A configuration with both collaborators, which change nothing and always answer alike but for one vector. -/
def both (at25 otherwise sup : Answer) : Instance where
  trapPresent := true
  supPresent := true
  trapFeed := { turns := [], rest := .table [⟨.trap 0x25, [], at25⟩] otherwise, dispatched := 0 }
  supFeed := { turns := [], rest := .table [] sup, dispatched := 0 }

/-- The test collaborator HaltOn25 of 95_test_vectors, section 2.5. -/
def haltOn25 : Instance := both (.halt []) (.complete []) (.complete [])

/-- No collaborator installed. -/
def bare : Instance := { both .silent .silent .silent with trapPresent := false, supPresent := false }

/-- A configuration, an image, and pokes before the first cycle. -/
def boot (c : Instance) (image : List (Word × Word)) (ps : List Poke) : State := (launch c image).pokes ps

/-- A trap collaborator that reads the machine: asked for vector 0x30 it doubles R0 where R0 is 3 and the return address
0x3001 stands in R7; to everything else it never signals. -/
def doubling : Turn :=
  .table [⟨.trap 0x30, [(.reg 0, .word 3), (.reg 7, .word 0x3001)], .complete [.reg 0 6]⟩] .silent

/-- The configuration with that collaborator. -/
def doubler : Instance := { haltOn25 with trapFeed := { turns := [], rest := doubling, dispatched := 0 } }

/-- Collaborators nothing is known of. -/
def unknown : Instance :=
  { haltOn25 with trapFeed := { turns := [], dispatched := 0, rest := .free 0 },
                  supFeed := { turns := [], dispatched := 0, rest := .free 0 } }

/-- The machine as a dispatched TRAP hands it over at the end of the core's part. -/
def trapped (s : State) : State := { s.advance.linkPc with trapFeed := s.trapFeed.next }

/-- The common start: no collaborator, one word at 0x3000, and pokes. -/
def start (w : Word) (ps : List Poke) : State := boot bare [(0x3000, w)] ps

/-- The state after a cycle that continued. -/
def after (r : Result) : Option State :=
  match r with
  | .next t => some t
  | .fault _ => none
  | .refused _ => none

/-- A register, COND and the PC after a cycle that continued. -/
def seen (r : RegIdx) (s : State) : Option (Word × Cond × Word) := (after (step s)).map fun t => (t.reg r, t.cond, t.pc)

/-- A memory word, COND and the PC after a cycle that continued. -/
def stored (a : Word) (s : State) : Option (Word × Cond × Word) := (after (step s)).map fun t => (t.read a, t.cond, t.pc)

/-- The outcome of a cycle with R7, COND and the PC of the state it leaves. -/
def left (s : State) : Option (CycleOutcome × Word × Cond × Word) :=
  (report (step s)).map fun c => (c.1, c.2.reg 7, c.2.cond, c.2.pc)

/-! ### Well-formedness: each check refuses a term just outside its field (00_scope R9, the table of ranges) -/

theorem test_wf_imm5_bounds : (Instr.addImm 0 1 15).wf = true ∧ (Instr.andImm 0 1 (-16)).wf = true := by decide
theorem test_wf_refuses_imm5 : (Instr.addImm 0 1 16).wf = false ∧ (Instr.addImm 0 1 (-17)).wf = false ∧
    (Instr.andImm 0 1 16).wf = false ∧ (Instr.andImm 0 1 (-17)).wf = false := by decide
theorem test_wf_off6_bounds : (Instr.ldr 0 1 31).wf = true ∧ (Instr.str 0 1 (-32)).wf = true := by decide
theorem test_wf_refuses_off6 : (Instr.ldr 0 1 32).wf = false ∧ (Instr.ldr 0 1 (-33)).wf = false ∧
    (Instr.str 0 1 32).wf = false ∧ (Instr.str 0 1 (-33)).wf = false := by decide
theorem test_wf_off9_bounds : (Instr.ld 0 255).wf = true ∧ (Instr.st 0 (-256)).wf = true := by decide
theorem test_wf_refuses_off9 : (Instr.br true true true 256).wf = false ∧ (Instr.ld 0 256).wf = false ∧
    (Instr.ldi 0 (-257)).wf = false ∧ (Instr.lea 0 256).wf = false ∧ (Instr.st 0 (-257)).wf = false ∧
    (Instr.sti 0 256).wf = false := by decide
theorem test_wf_off11_bounds : (Instr.jsr 1023).wf = true ∧ (Instr.jsr (-1024)).wf = true := by decide
theorem test_wf_refuses_off11 : (Instr.jsr 1024).wf = false ∧ (Instr.jsr (-1025)).wf = false := by decide

/-! ### Decoding: words written out bit by bit from 30_encoding R62 to R74 -/

theorem test_decode_br : decode 0b0000_101_000000010 = .br true false true 2 := by decide
theorem test_decode_addReg : decode 0b0001_010_011_0_00_100 = .addReg 2 3 4 := by decide
theorem test_decode_addImm : decode 0b0001_000_001_1_11101 = .addImm 0 1 (-3) := by decide
theorem test_decode_ld : decode 0b0010_001_100000000 = .ld 1 (-256) := by decide
theorem test_decode_st : decode 0b0011_111_011111111 = .st 7 255 := by decide
theorem test_decode_jsrr : decode 0b0100_0_11_011_111111 = .jsrr 3 := by decide
theorem test_decode_jsr : decode 0b0100_1_10000000000 = .jsr (-1024) := by decide
theorem test_decode_andReg : decode 0b0101_000_001_0_11_010 = .andReg 0 1 2 := by decide
theorem test_decode_andImm : decode 0b0101_000_001_1_01111 = .andImm 0 1 15 := by decide
theorem test_decode_ldr : decode 0b0110_001_010_100000 = .ldr 1 2 (-32) := by decide
theorem test_decode_str : decode 0b0111_000_110_011111 = .str 0 6 31 := by decide
theorem test_decode_rti : decode 0b1000_111111111111 = .rti := by decide
theorem test_decode_notReg : decode 0b1001_001_010_000000 = .notReg 1 2 := by decide
theorem test_decode_ldi : decode 0b1010_001_111111111 = .ldi 1 (-1) := by decide
theorem test_decode_sti : decode 0b1011_001_000000001 = .sti 1 1 := by decide
theorem test_decode_jmp : decode 0b1100_111_011_111111 = .jmp 3 := by decide
theorem test_decode_res : decode 0b1101_000000000000 = .res := by decide
theorem test_decode_lea : decode 0b1110_000_000001011 = .lea 0 11 := by decide
theorem test_decode_trap : decode 0b1111_1111_00100101 = .trap 0x25 := by decide

/-- The words of 95_test_vectors, section 2.7, one per opcode value. -/
theorem test_decode_mnemonics :
    ([0x0FFF, 0x1FFF, 0x1FDF, 0x2ABC, 0x3ABC, 0x47FF, 0x4800, 0x5ABC, 0x6ABC, 0x7ABC].map
      fun w => (decode w).mnemonic) =
    ["BR", "ADD__immediate", "ADD__register", "LD", "ST", "JSRR", "JSR", "AND__immediate", "LDR", "STR"] := by decide

theorem test_decode_mnemonics_high :
    ([0x8ABC, 0x9ABC, 0xAABC, 0xBABC, 0xCABC, 0xDABC, 0xEABC, 0xFABC].map fun w => (decode w).mnemonic) =
    ["RTI", "NOT", "LDI", "STI", "JMP", "RES", "LEA", "TRAP"] := by decide

/-- Sign extension at the points of 95_test_vectors T1. -/
theorem test_sext16 : sext16 0b11111#5 = 0xFFFF ∧ sext16 0b01111#5 = 0x000F ∧ sext16 0b10000#5 = 0xFFF0 ∧
    sext16 0b100000#6 = 0xFFE0 ∧ sext16 0b100000000#9 = 0xFF00 ∧ sext16 0b10000000000#11 = 0xFC00 ∧
    sext16 0b01111111111#11 = 0x03FF := by decide

/-! ### One cycle per test (95_test_vectors, sections 1 and 2) -/

theorem test_addReg_wraps : seen 2 (start 0x14C4 [.reg 3 0xFFFF, .reg 4 1]) = some (0, .zero, 0x3001) := by decide
theorem test_addReg_overflow_is_silent :
    seen 2 (start 0x14C4 [.reg 3 0x7FFF, .reg 4 1]) = some (0x8000, .negative, 0x3001) := by decide
theorem test_addImm_negative : seen 0 (start 0x107D [.reg 1 5]) = some (2, .positive, 0x3001) := by decide
theorem test_addImm_at_the_top_of_memory :
    seen 1 (boot bare [(0xFFFF, 0x127F)] [.pc 0xFFFF]) = some (0xFFFF, .negative, 0) := by decide
theorem test_andReg : seen 0 (start 0x5042 [.reg 1 0xF0F0, .reg 2 0xFF00]) = some (0xF000, .negative, 0x3001) := by
  decide
theorem test_andImm_sign_extends : seen 0 (start 0x507F [.reg 1 0x1234]) = some (0x1234, .positive, 0x3001) := by
  decide
theorem test_andImm_clears :
    seen 0 (start 0x5020 [.reg 0 0xFFFF, .cond .negative]) = some (0, .zero, 0x3001) := by decide
theorem test_notReg : seen 1 (start 0x92BF [.reg 2 0x00FF]) = some (0xFF00, .negative, 0x3001) := by decide
theorem test_notReg_same_register : seen 3 (start 0x96FF [.reg 3 0x7FFF]) = some (0x8000, .negative, 0x3001) := by
  decide
theorem test_br_uninitialized_never_branches : seen 0 (start 0x0E03 []) = some (0, .uninitialized, 0x3001) := by decide
theorem test_br_wraps_below_zero :
    seen 0 (boot bare [(0x0010, 0x0F00)] [.pc 0x0010, .cond .zero]) = some (0, .zero, 0xFF11) := by decide
theorem test_jmp_ignored_bits : seen 3 (start 0xCEFF [.reg 3 0x1234]) = some (0x1234, .uninitialized, 0x1234) := by
  decide
theorem test_jsr_smallest_offset : seen 7 (start 0x4C00 []) = some (0x3001, .uninitialized, 0x2C01) := by decide
theorem test_jsrr : seen 7 (start 0x40C0 [.reg 3 0x4000, .reg 7 0x1111]) = some (0x3001, .uninitialized, 0x4000) := by
  decide
theorem test_jsrr_through_r7 : seen 7 (start 0x41C0 [.reg 7 0x5000]) = some (0x3001, .uninitialized, 0x3001) := by
  decide
theorem test_ld_own_word : seen 0 (start 0x21FF []) = some (0x21FF, .positive, 0x3001) := by decide
theorem test_ld_wraps :
    seen 1 (boot bare [(0xFFFF, 0x2200), (0, 0x8001)] [.pc 0xFFFF]) = some (0x8001, .negative, 0) := by decide
theorem test_ldi :
    seen 1 (start 0xA201 [.mem 0x3002 0x4000, .mem 0x4000 0x0042]) = some (0x0042, .positive, 0x3001) := by decide
theorem test_ldi_pointer_at_itself : seen 1 (start 0xA200 [.mem 0x3001 0x3001]) = some (0x3001, .positive, 0x3001) := by
  decide
theorem test_ldr_same_register : seen 1 (start 0x6240 [.reg 1 0x4000, .mem 0x4000 7]) = some (7, .positive, 0x3001) := by
  decide
theorem test_ldr_wraps :
    seen 1 (start 0x62A0 [.reg 2 0x0010, .mem 0xFFF0 0xFFFF]) = some (0xFFFF, .negative, 0x3001) := by decide
theorem test_lea : seen 0 (start 0xE00B []) = some (0x300C, .positive, 0x3001) := by decide
theorem test_lea_of_address_zero :
    seen 0 (boot bare [(0xFFFF, 0xE000)] [.pc 0xFFFF, .reg 0 0x1234, .cond .negative]) = some (0, .zero, 0) := by decide
theorem test_st_own_word :
    stored 0x3000 (start 0x31FF [.reg 0 0xDEAD, .cond .zero]) = some (0xDEAD, .zero, 0x3001) := by decide
theorem test_st_wraps :
    stored 0 (boot bare [(0xFFFF, 0x3200)] [.pc 0xFFFF, .reg 1 0xABCD]) = some (0xABCD, .uninitialized, 0) := by decide
theorem test_sti :
    stored 0x4000 (start 0xB201 [.reg 1 0x0099, .mem 0x3002 0x4000]) = some (0x0099, .uninitialized, 0x3001) := by
  decide
theorem test_sti_pointer_is_its_target :
    stored 0x3001 (start 0xB200 [.reg 1 0x5555, .mem 0x3001 0x3001]) = some (0x5555, .uninitialized, 0x3001) := by
  decide
theorem test_str_wraps_above :
    stored 0x001E (start 0x719F [.reg 0 0x5555, .reg 6 0xFFFF]) = some (0x5555, .uninitialized, 0x3001) := by decide
theorem test_str_wraps_below : stored 0xFFFF (start 0x71BF [.reg 0 0x5555]) = some (0x5555, .uninitialized, 0x3001) := by
  decide
theorem test_rti_without_collaborator : left (start 0x8FFF [.reg 7 0x1111, .cond .negative]) =
    some (.fault .privilegedInstruction, 0x1111, .negative, 0x3001) := by decide
theorem test_rti_with_collaborator : left (boot haltOn25 [(0x3000, 0x8000)] []) =
    some (.continued, 0, .uninitialized, 0x3001) := by decide
theorem test_trap_without_collaborator : left (start 0xF025 [.reg 7 0x1111]) =
    some (.fault .privilegedInstruction, 0x1111, .uninitialized, 0x3001) := by decide
theorem test_trap_halts : left (boot haltOn25 [(0x3000, 0xFF25)] []) =
    some (.halt, 0x3001, .uninitialized, 0x3001) := by decide
theorem test_trap_completes_at_the_top : left (boot haltOn25 [(0xFFFF, 0xF0FF)] [.pc 0xFFFF, .reg 7 0x1111]) =
    some (.continued, 0, .uninitialized, 0) := by decide
/-- The collaborator receives the machine with R7 already holding the return address, and may act on what it sees. -/
theorem test_collaborator_reads_the_machine :
    seen 0 (boot doubler [(0x3000, 0xF030)] [.reg 0 3]) = some (6, .uninitialized, 0x3001) ∧
    left (boot doubler [(0x3000, 0xF030)] [.reg 0 4]) = none := by decide

/-- An unknown collaborator answers by the vector, the machine and the number of the dispatch. -/
theorem test_unknown_collaborator_answers_by_choice (m : Snapshot) :
    unknown.trapFeed.answer (.trap 0x20) m = Config.freeAnswer 0 0 (.trap 0x20) m ∧
    unknown.trapFeed.next.answer (.trap 0x20) m = Config.freeAnswer 0 1 (.trap 0x20) m := ⟨rfl, rfl⟩

theorem test_res : left (boot haltOn25 [(0x3000, 0xD000)] [.reg 7 0x1111, .cond .zero]) =
    some (.fault .illegalOpcode, 0x1111, .zero, 0x3001) := by decide

/-! ### Creation, pokes, the host's words (95_test_vectors, section 2.6) -/

theorem test_poke_of_a_register_leaves_cond :
    (State.reset.poke (.reg 3 0x8000)).reg 3 = 0x8000 ∧ (State.reset.poke (.reg 3 0x8000)).cond = .uninitialized := by
  decide
theorem test_peek_of_cond :
    State.reset.peek .cond = .flag .uninitialized ∧ (start 0 [.cond .zero]).peek .cond = .flag .zero ∧
    State.reset.peek .pc = .word 0x3000 := by decide
theorem test_first_cycle_without_an_image : step State.reset = .next (State.reset.setPc 0x3001) := rfl
theorem test_fetch_word : seen 0 (State.reset.withFetchWord 16 0x1021) = some (1, .positive, 0x3001) := by decide
theorem test_table_word : decodeTableWord 16 0x1021 = some (.addImm 0 0 1) := by decide
theorem test_writing_zero_removes_the_entry :
    ((State.reset.write 5 7).write 5 0).mem = [] ∧ ((State.reset.write 9 7).write 5 7).mem = [(5, 7), (9, 7)] := by
  decide

/-! ### Witnesses -/

theorem witness_EveryCycleKeepsTheInvariant :
    (State.reset.Inv ∧ report (step State.reset) = some (.continued, State.reset.advance)) ∧
    ((start 0xD000 []).Inv ∧
      report (step (start 0xD000 [])) = some (.fault .illegalOpcode, (start 0xD000 []).advance)) := by
  unfold State.Inv; decide

theorem witness_EveryCycleKeepsTheInvariant_halt :
    (boot haltOn25 [(0x3000, 0xF025)] []).Inv ∧ report (step (boot haltOn25 [(0x3000, 0xF025)] [])) =
      some (.halt, trapped (boot haltOn25 [(0x3000, 0xF025)] [])) := by
  unfold State.Inv; decide

theorem witness_WordReadsAsWrittenUntilTheNextWrite :
    (∀ c ∈ [((0x3001 : Word), (7 : Word)), (0xFFFF, 8)], c.1 ≠ 0x3000) ∧ (0 : Word) ≠ 0x3000 := by simp

theorem witness_MemoriesThatReadAlikeAreEqual :
    Memory.wf [(0, 1), (65535, 2)] = true ∧
    ∀ a : Word, Memory.read [(0, 1), (65535, 2)] a = Memory.read (Memory.write [(0, 1)] 65535 2) a :=
  ⟨by decide, fun _ => by rw [show Memory.write [(0, 1)] 65535 2 = [(0, 1), (65535, 2)] by decide]⟩

theorem witness_SignExtensionRepeatsTheTopBit :
    (0b10000#5).toNat / 2 ^ (5 - 1) % 2 = 1 ∧ (0b100000#6).toNat / 2 ^ (6 - 1) % 2 = 1 ∧
    (0b100000000#9).toNat / 2 ^ (9 - 1) % 2 = 1 ∧ ¬ (0b01111111111#11).toNat / 2 ^ (11 - 1) % 2 = 1 := by decide

theorem witness_DecodeOfEncodeIsTheInstruction :
    (Instr.addImm 7 7 (-16)).wf = true ∧ (Instr.str 7 7 31).wf = true ∧ (Instr.br true true true (-256)).wf = true ∧
    (Instr.jsr 1023).wf = true := by decide

/-- Every row of the table has a word. -/
theorem witness_EncodeOfDecodeKeepsEveryNamedBit : ∀ row ∈ opcodeTable, row.matches row.pattern = true := by decide

theorem witness_IgnoredBitsHaveNoEffect : ∃ row ∈ opcodeTable, row.matches 0x1001 = true ∧
    (0x1001 : Word) ^^^ (0xFFFF &&& row.ignored) = 0x1019 := by decide

theorem witness_StepRunsTheDecodedInstruction : (start 0x14C4 []).read (start 0x14C4 []).pc = 0x14C4 ∧
    decode 0x14C4 = .addReg 2 3 4 ∧ (Instr.addReg 2 3 4).wf = true := by decide

theorem witness_OutcomesOfEachInstruction :
    decode (start 0x3200 []).fetch = .st 1 0 ∧ decode (start 0xD000 []).fetch = .res ∧
    (decode (start 0xF025 []).fetch = .trap 0x25 ∧ (start 0xF025 []).trapPresent = false) ∧
    (decode (start 0x8000 []).fetch = .rti ∧ (start 0x8000 []).supPresent = false) := by decide

theorem witness_OutcomesOfEachInstruction_dispatched :
    (decode (boot haltOn25 [(0x3000, 0xF025)] []).fetch = .trap 0x25 ∧
      (boot haltOn25 [(0x3000, 0xF025)] []).trapPresent = true) ∧
    (decode (boot haltOn25 [(0x3000, 0x8000)] []).fetch = .rti ∧
      (boot haltOn25 [(0x3000, 0x8000)] []).supPresent = true) := by decide

theorem witness_FaultingCycleChangesOnlyThePc :
    report (step (start 0xDFFF [])) = some (.fault .illegalOpcode, (start 0xDFFF []).advance) ∧
    report (step (start 0xF025 [])) = some (.fault .privilegedInstruction, (start 0xF025 []).advance) := by decide

theorem witness_IllegalOpcodeExactlyOnOpcodeThirteen :
    (start 0xD000 []).fetch = 0xD000 ∧ (start 0xDFFF []).fetch = 0xDFFF := by decide

theorem witness_PrivilegedExactlyWithoutACollaborator :
    ((start 0x8000 []).fetch = 0x8000 ∧ (start 0x8FFF []).fetch = 0x8FFF ∧ (start 0x8000 []).supPresent = false) ∧
    ((start 0xF000 []).fetch = 0xF000 ∧ (start 0xFFFF []).fetch = 0xFFFF ∧ (start 0xF000 []).trapPresent = false) := by
  decide

theorem witness_PcIsIncrementedAndLeftSo :
    (decode (boot bare [(0xFFFF, 0xE000)] [.pc 0xFFFF]).fetch).transfers = false ∧
    (boot bare [(0xFFFF, 0xE000)] [.pc 0xFFFF]).pc = 0xFFFF ∧
    report (step (boot bare [(0xFFFF, 0xE000)] [.pc 0xFFFF])) =
      some (.continued, ((boot bare [(0xFFFF, 0xE000)] [.pc 0xFFFF]).advance.writeResult 0 0)) := by decide

/-- With a destination, without one, and with a collaborator that does not write COND. -/
theorem witness_CondIsWrittenOnlyByFlagAffecting :
    (report (step (start 0x1021 [])) = some (.continued, (start 0x1021 []).advance.writeResult 0 1) ∧
      (decode (start 0x1021 []).fetch).changes (start 0x1021 []).advance = [] ∧
      (decode (start 0x1021 []).fetch).resultReg = some 0) ∧
    (report (step (boot haltOn25 [(0x3000, 0xF000)] [])) =
        some (.continued, trapped (boot haltOn25 [(0x3000, 0xF000)] [])) ∧
      (decode (boot haltOn25 [(0x3000, 0xF000)] []).fetch).changes (boot haltOn25 [(0x3000, 0xF000)] []).advance = [] ∧
      (decode (boot haltOn25 [(0x3000, 0xF000)] []).fetch).resultReg = none) := by decide

theorem witness_CondNeverReturnsToUninitialized :
    report (step (start 0xC000 [])) = some (.continued, (start 0xC000 []).advance.setPc 0) ∧
    (decode (start 0xC000 []).fetch).changes (start 0xC000 []).advance = [] ∧
    ((start 0xC000 []).advance.setPc 0).cond = .uninitialized ∧ (start 0xC000 []).cond = .uninitialized ∧
    (decode (start 0xC000 []).fetch).resultReg = none := by decide

theorem witness_CondIsReadOnlyByBr : State.reset.cond = .uninitialized ∧
    (∀ n z p off, Instr.trap 0x25 ≠ .br n z p off) ∧ (Instr.trap 0x25).dispatches (start 0 []) = false :=
  ⟨rfl, fun _ _ _ _ => by simp, rfl⟩

theorem witness_OnlyNamedRegistersAreWritten :
    report (step (start 0x4800 [])) = some (.continued, (start 0x4800 []).advance.linkPc) ∧
    (decode (start 0x4800 []).fetch).resultReg ≠ some 6 ∧ (decode (start 0x4800 []).fetch).links = true ∧
    (6 : RegIdx) ≠ 7 ∧ (decode (start 0x4800 []).fetch).changes (start 0x4800 []).advance = [] := by decide

theorem witness_OnlyTheStoreAddressIsWritten :
    report (step (start 0x3200 [.reg 1 9])) = some (.continued, (start 0x3200 [.reg 1 9]).advance.write 0x3001 9) ∧
    (decode (start 0x3200 [.reg 1 9]).fetch).storeAddress (start 0x3200 [.reg 1 9]).advance ≠ some 0x3002 ∧
    (decode (start 0x3200 [.reg 1 9]).fetch).changes (start 0x3200 [.reg 1 9]).advance = [] := by decide

/-- A store to the word fetched next (program P5 of 95_test_vectors), and one elsewhere. -/
theorem witness_StoreIsSeenByTheNextFetch :
    ((decode (start 0x3000 []).fetch).storeAddress (start 0x3000 []).advance = some 0x3001 ∧
      (decode (start 0x3000 []).fetch).storeReg = some 0) ∧
    ((decode (start 0x7FC0 [.reg 7 0x1234]).fetch).storeAddress (start 0x7FC0 [.reg 7 0x1234]).advance = some 0x1234 ∧
      (decode (start 0x7FC0 [.reg 7 0x1234]).fetch).storeReg = some 7) := by decide

/-- Two states that differ in the environment's answers only. -/
theorem witness_OutcomeDependsOnlyOnArchitecturalState :
    SameArch (boot haltOn25 [(0x3000, 0x14C4)] []) (boot (both .silent .silent .silent) [(0x3000, 0x14C4)] []) ∧
    SameFlags (boot haltOn25 [(0x3000, 0x14C4)] []) (boot (both .silent .silent .silent) [(0x3000, 0x14C4)] []) ∧
    (decode (boot haltOn25 [(0x3000, 0x14C4)] []).fetch).dispatches (boot haltOn25 [(0x3000, 0x14C4)] []) = false :=
  ⟨⟨fun _ => rfl, rfl, rfl, fun _ => rfl⟩, ⟨rfl, rfl⟩, by decide⟩

theorem witness_NoCycleChangesTheInstallFlags : report (step (boot haltOn25 [(0x3000, 0x8000)] [])) =
    some (.continued, { (boot haltOn25 [(0x3000, 0x8000)] []).advance with supFeed := haltOn25.supFeed.next }) := by
  decide

theorem witness_RunStopsAtTheFirstOtherOutcome :
    (runLoop 1 (start 0xD000 []) = .fault (.illegalOpcode (start 0xD000 []).advance) ∧ 1 ≤ 3) ∧
    runLoop 1 State.reset = .next State.reset.advance := ⟨⟨rfl, by decide⟩, rfl⟩

theorem witness_ZeroedMemoryOnlyAdvancesThePc : ∀ a : Word, State.reset.read a = 0 := fun _ => rfl

theorem witness_FlagFollowsTheValueWritten : (0 : Word).toNat = 0 ∧
    (0x8000 ≤ (0x8000 : Word).toNat ∧ (0x8000 : Word).toNat ≤ 0xFFFF) ∧
    (0x8000 ≤ (0xFFFF : Word).toNat ∧ (0xFFFF : Word).toNat ≤ 0xFFFF) ∧
    (1 ≤ (1 : Word).toNat ∧ (1 : Word).toNat ≤ 0x7FFF) ∧ (1 ≤ (0x7FFF : Word).toNat ∧ (0x7FFF : Word).toNat ≤ 0x7FFF) := by
  decide

/-- Each way to be taken, and one not to be: the mask of an Uninitialized flag. -/
theorem witness_BrForm :
    ((start 0x0803 [.cond .negative]).cond = .negative ∧ decode (start 0x0803 []).fetch = .br true false false 3) ∧
    ((start 0x0403 [.cond .zero]).cond = .zero ∧ decode (start 0x0403 []).fetch = .br false true false 3) ∧
    ((start 0x0203 [.cond .positive]).cond = .positive ∧ decode (start 0x0203 []).fetch = .br false false true 3) ∧
    ((start 0x0E03 []).cond = .uninitialized ∧ decode (start 0x0E03 []).fetch = .br true true true 3) := by decide

theorem witness_TakenBrToItselfRepeats : decode (start 0x09FF [.cond .negative]).fetch = .br true false false 0xFFFF ∧
    (start 0x09FF [.cond .negative]).cond = .negative := by decide

/-- JSR, and TRAP with a collaborator; then a JMP through R7. -/
theorem witness_CallThenJmpThroughR7Returns :
    ((decode (start 0x4802 []).fetch).links = true ∧
      (decode (start 0x4802 []).fetch).changes (start 0x4802 []).advance = [] ∧
      report (step (start 0x4802 [])) = some (.continued, (start 0x4802 []).advance.linkPc.setPc 0x3003)) ∧
    ((decode (boot haltOn25 [(0x3000, 0xF000)] []).fetch).dispatches (boot haltOn25 [(0x3000, 0xF000)] []) = true ∧
      report (step (boot haltOn25 [(0x3000, 0xF000)] [])) =
        some (.continued, trapped (boot haltOn25 [(0x3000, 0xF000)] []))) ∧
    (decode (start 0xC1C0 [.reg 7 0x3001]).fetch = .jmp 7 ∧ (start 0xC1C0 [.reg 7 0x3001]).reg 7 =
      ((start 0x4802 []).advance.linkPc.setPc 0x3003).reg 7) := by decide

/-- The instance of 95_test_vectors T4. -/
def t4 : State := boot bare [(0x3000, 0xE205), (0x3001, 0x3004), (0x3002, 0x2403)] [.reg 0 0xCAFE]

/-- T4 after its LEA. -/
def t4b : State := t4.advance.writeResult 1 0x3006

/-- T4 after its ST. -/
def t4c : State := t4b.advance.write 0x3006 0xCAFE

theorem witness_LeaThenStThenLdYieldsTheValue :
    (decode t4.fetch = .lea 1 5 ∧ step t4 = .next t4b) ∧
    (decode t4b.fetch = .st 0 4 ∧ t4b.pc + 1 + 4 = t4b.reg 1 ∧ step t4b = .next t4c) ∧
    (decode t4c.fetch = .ld 2 3 ∧ t4c.pc + 1 + 3 = t4b.reg 1) :=
  ⟨⟨by decide, rfl⟩, ⟨by decide, by decide, rfl⟩, by decide, by decide⟩

theorem witness_RtiForm : (start 0x8000 []).supPresent = false ∧
    ((boot haltOn25 [] []).supPresent = true ∧
      (boot haltOn25 [] []).supFeed.answer .rti (boot haltOn25 [] []).snapshot = .complete []) ∧
    (boot (both .silent .silent (.halt [])) [] []).supFeed.answer .rti State.reset.snapshot = .halt [] ∧
    (boot (both .silent .silent .silent) [] []).supFeed.answer .rti State.reset.snapshot = .silent := by decide

theorem witness_TrapWithoutACollaboratorFaults : (start 0xF025 []).trapPresent = false := by decide

/-- The machine handed over by a TRAP from reset, and the three signals. -/
theorem witness_TrapSavesThePcAndDispatches : (boot haltOn25 [] []).trapPresent = true ∧
    haltOn25.trapFeed.answer (.trap 0x25) (boot haltOn25 [] []).linkPc.snapshot = .halt [] ∧
    (both (.complete [.reg 0 65]) .silent .silent).trapFeed.answer (.trap 0x25)
      (boot haltOn25 [] []).linkPc.snapshot = .complete [.reg 0 65] ∧
    (both .silent .silent .silent).trapFeed.answer (.trap 0) (boot haltOn25 [] []).linkPc.snapshot = .silent := by decide

theorem witness_TrapCompletesWhenTheCollaboratorDoes : (boot haltOn25 [] []).trapPresent = true ∧
    (boot haltOn25 [] []).trapFeed.answer (.trap 0xFF)
      ((boot haltOn25 [] []).setReg 7 (boot haltOn25 [] []).pc).snapshot = .complete [] := by decide

/-- The assumption of 95_test_vectors on its collaborator: vector 0x25 halts, anything else completes, nothing is
changed. -/
def haltsOn25 (c : Call) (_ : Snapshot) (a : Answer) : Prop := a = if c = .trap 0x25 then .halt [] else .complete []

theorem haltOn25_obeys : haltOn25.trapFeed.Obeys haltsOn25 := by
  intro j c m
  unfold haltsOn25 haltOn25 both
  rw [Feed.answer_skip_rest]
  by_cases h : c = .trap 0x25
  · subst h; rfl
  · have h' : (Call.trap 0x25 == c) = false := beq_false_of_ne (Ne.symm h)
    rw [if_neg h]; simp only [Turn.answer, List.find?, Case.applies, h', Bool.false_and]; rfl

theorem haltOn25_sup_obeys : haltOn25.supFeed.Obeys (fun _ _ a => a = .complete []) := fun j c m => by
  unfold haltOn25 both; rw [Feed.answer_skip_rest]; rfl

theorem witness_DispatchFollowsTheAssumedRelation :
    ((boot haltOn25 [] []).trapPresent = true ∧ (boot haltOn25 [] []).trapFeed.Obeys haltsOn25) ∧
    ((boot haltOn25 [] []).supPresent = true ∧ (boot haltOn25 [] []).supFeed.Obeys (fun _ _ a => a = .complete [])) :=
  ⟨⟨rfl, haltOn25_obeys⟩, rfl, haltOn25_sup_obeys⟩

/-- A collaborator whose answers need never settle, with what can be assumed of it: the relation of its answers at all
choices of the environment. -/
theorem witness_DispatchFollowsTheAssumedRelation_unknown : (boot unknown [] []).trapPresent = true ∧
    (boot unknown [] []).trapFeed.Obeys (fun c m a => ∃ n, a = Config.freeAnswer 0 n c m) :=
  ⟨rfl, Feed.free_obeys fun j _ _ => ⟨j, rfl⟩⟩

theorem witness_EveryCycleKeepsTheAssumedRelations :
    (boot haltOn25 [(0x3000, 0xF000)] []).trapFeed.Obeys haltsOn25 ∧
    (boot haltOn25 [(0x3000, 0xF000)] []).supFeed.Obeys (fun _ _ a => a = .complete []) ∧
    report (step (boot haltOn25 [(0x3000, 0xF000)] [])) =
      some (.continued, trapped (boot haltOn25 [(0x3000, 0xF000)] [])) :=
  ⟨haltOn25_obeys, haltOn25_sup_obeys, by decide⟩

theorem witness_PeekShowsWhatWasPoked : Place.mem 0xFFFF ≠ (Poke.mem 0 7).place ∧ Place.cond ≠ (Poke.pc 0).place := by
  decide

end Sys2Proof.Tests
end

section
/-! PROOFS. Sign extension as arithmetic on the numbers of the field and of the word (00_scope R9). -/

namespace Sys2Proof

/-- The top bit `f[b-1]` as arithmetic; the empty field has none, and its number is 0. -/
theorem msb_eq_div_mod {b : Nat} (f : BitVec b) : f.msb = decide (f.toNat / 2 ^ (b - 1) % 2 = 1) := by
  rw [BitVec.msb_eq_getLsbD_last, ← BitVec.testBit_toNat, Nat.testBit_eq_decide_div_mod_eq]

/-- `sext_16` as the spec computes it, for every width a word can hold (00_scope R9). -/
theorem toNat_sext16 {b : Nat} (hb : b ≤ 16) (f : BitVec b) :
    (sext16 f).toNat =
      if f.toNat / 2 ^ (b - 1) % 2 = 1 then f.toNat + (65536 - 2 ^ b) else f.toNat := by
  rw [sext16, BitVec.toNat_signExtend, BitVec.toNat_setWidth_of_le hb, msb_eq_div_mod]
  by_cases htop : f.toNat / 2 ^ (b - 1) % 2 = 1 <;> simp [htop]

/-- Settles O7: each of the four widths is at most 16, so the rule of `toNat_sext16` covers it; the source's two
values are computed. -/
theorem signExtensionRepeatsTheTopBit : Obligations.SignExtensionRepeatsTheTopBit := by
  unfold Obligations.SignExtensionRepeatsTheTopBit
  refine ⟨fun b f hwidth => toNat_sext16 ?_ f, by decide, by decide⟩
  omega

end Sys2Proof
end

section
/-! PROOFS. The state after CREATE, and what a cycle does to the PC and to COND: the flag of a value, who writes
COND, who reads it (10_state R26, R29, R32 to R34, R39). -/

namespace Sys2Proof.Machine

/-! ### The state after CREATE -/

@[simp] theorem State.reset_reg (r : RegIdx) : State.reset.reg r = 0 := by simp [State.reset, State.reg]
@[simp] theorem State.reset_pc : State.reset.pc = 0x3000 := rfl
@[simp] theorem State.reset_cond : State.reset.cond = .uninitialized := rfl
@[simp] theorem State.reset_read (a : Word) : State.reset.read a = 0 := rfl

/-- Settles O1, place by place. -/
theorem resetIsTheCreationState : Obligations.ResetIsTheCreationState :=
  ⟨State.reset_reg, State.reset_pc, State.reset_cond, State.reset_read⟩

/-! ### The PC -/

/-- The handler of an instruction that is no control transfer leaves the PC where it found it. -/
theorem exec_pc_of_not_transfers {i : Instr} {s t : State} {o : CycleOutcome}
    (h : report (exec i s) = some (o, t)) (hi : i.transfers = false) : t.pc = s.pc := by
  have hnot : i.transfers ≠ true := by simp [hi]
  obtain ⟨d, v, -, -, -, -, rfl⟩ | ⟨ea, sr, -, -, -, -, -, -, rfl⟩ | ⟨v, -, -, ht, -⟩ | ⟨v, -, -, ht, -⟩ |
    ⟨-, -, ht, -⟩ | ⟨r, -, -, -, -, rfl⟩ := exec_cases h
  · exact s.writeResult_pc d v
  · exact s.write_pc ea _
  · exact absurd ht hnot
  · exact absurd ht hnot
  · exact absurd ht hnot
  · rfl

/-- Settles O19: the handler starts with the PC incremented, and `exec_pc_of_not_transfers` says that it stays so. -/
theorem pcIsIncrementedAndLeftSo : Obligations.PcIsIncrementedAndLeftSo := by
  unfold Obligations.PcIsIncrementedAndLeftSo
  refine fun s => ⟨rfl, fun o t h hi => ?_⟩
  have hpc : t.pc = s.pc + 1 := exec_pc_of_not_transfers h hi
  refine ⟨hpc, fun hmax => ?_⟩
  rw [hpc, hmax]; rfl

/-! ### The flag of a value -/

/-- `cc` by the number of the value (10_state R33). -/
theorem cc_eq (v : Word) :
    cc v = if v.toNat = 0 then .zero else if 0x8000 ≤ v.toNat then .negative else .positive := by
  simp [cc, BitVec.msb_eq_decide, BitVec.toNat_eq]

/-- No value has the flag Uninitialized (10_state R33). -/
theorem cc_ne_uninitialized (v : Word) : cc v ≠ .uninitialized := by
  unfold cc
  split
  · simp
  · split <;> simp

/-- Settles O30: the flag is that of the value written, and `cc_eq` gives it in each of the three ranges. -/
theorem flagFollowsTheValueWritten : Obligations.FlagFollowsTheValueWritten := by
  unfold Obligations.FlagFollowsTheValueWritten
  intro s r v
  rw [show ((s.setReg r v).updateFlags r).cond = cc v from s.writeResult_cond r v, cc_eq]
  refine ⟨fun hzero => if_pos hzero, fun hneg => ?_, fun hpos => ?_⟩
  · rw [if_neg (by omega), if_pos hneg.1]
  · rw [if_neg (by omega), if_neg (by omega)]

/-! ### Who writes COND -/

theorem handedOver_cond (i : Instr) (s : State) : (handedOver i s).cond = s.cond := by
  unfold handedOver
  split <;> rfl

/-- COND after a handler: the flag of the destination register, or, of an instruction without one, what its
collaborator wrote or what it was (10_state R32). -/
theorem exec_cond_cases {i : Instr} {s t : State} {o : CycleOutcome} (h : report (exec i s) = some (o, t)) :
    (∃ d, i.resultReg = some d ∧ t.cond = cc (t.reg d)) ∨
    (i.resultReg = none ∧ (Poke.cond t.cond ∈ i.changes s ∨ t.cond = s.cond)) := by
  obtain ⟨d, v, hd, -, -, -, rfl⟩ | ⟨ea, sr, -, -, hnone, -, -, -, rfl⟩ | ⟨v, hnone, -, -, -, -, -, rfl⟩ |
    ⟨v, hnone, -, -, -, -, -, rfl⟩ | ⟨hnone, -, -, -, -, rfl⟩ | ⟨r, hnone, -, -, -, rfl⟩ := exec_cases h
  · exact .inl ⟨d, hd, by simp⟩
  · exact .inr ⟨hnone, .inr rfl⟩
  · exact .inr ⟨hnone, .inr rfl⟩
  · exact .inr ⟨hnone, .inr rfl⟩
  · have hpokes := State.pokes_cond_cases (handedOver i s) (i.changes s)
    rw [handedOver_cond] at hpokes
    exact .inr ⟨hnone, hpokes⟩
  · exact .inr ⟨hnone, .inr rfl⟩

/-- Settles O20: of the cases of `exec_cond_cases` the assumption leaves out the collaborator's own write. -/
theorem condIsWrittenOnlyByFlagAffecting : Obligations.CondIsWrittenOnlyByFlagAffecting := by
  unfold Obligations.CondIsWrittenOnlyByFlagAffecting
  refine ⟨fun s t o h hpoke => ?_, fun s r v => s.setReg_cond r v⟩
  obtain ⟨d, hd, hcond⟩ | ⟨hnone, hwritten | hkept⟩ := exec_cond_cases h
  · simp only [hd, hcond]
  · exact absurd hwritten (hpoke t.cond)
  · simp only [hnone, hkept, State.advance_cond]

/-- Settles O21: the flag of a destination register is never U (`cc_ne_uninitialized`), so a U after a cycle is the
collaborator's or the old one; and an old U stays where neither an instruction nor a collaborator writes COND. -/
theorem condNeverReturnsToUninitialized : Obligations.CondNeverReturnsToUninitialized := by
  unfold Obligations.CondNeverReturnsToUninitialized
  refine ⟨State.reset_cond, fun s t o h => ⟨fun hpoke hU => ?_, fun hpoke hU hres => ?_⟩⟩
  · obtain ⟨d, -, hcond⟩ | ⟨hnone, hwritten | hkept⟩ := exec_cond_cases h
    · exact absurd (hcond.symm.trans hU) (cc_ne_uninitialized _)
    · exact absurd (hU ▸ hwritten) hpoke
    · exact ⟨hkept.symm.trans hU, hnone⟩
  · obtain ⟨d, hd, -⟩ | ⟨-, hwritten | hkept⟩ := exec_cond_cases h
    · simp [hres] at hd
    · exact absurd hwritten (hpoke t.cond)
    · exact hkept.trans hU

/-! ### Who reads COND -/

/-- An Uninitialized flag meets no mask (10_state R34). -/
@[simp] theorem branchTaken_uninitialized (n z p : Bool) : branchTaken n z p .uninitialized = false := by
  simp [branchTaken, nzp]

/-- The handler of a flag-affecting instruction overwrites COND without reading it. -/
theorem exec_setCond_of_result {i : Instr} {d : RegIdx} (h : i.resultReg = some d) (s : State) (c : Cond) :
    exec i (s.setCond c) = exec i s := by
  cases i with
  | addReg | addImm | andReg | andImm | notReg | ld | ldi | ldr | lea => rfl
  | br | jmp | jsr | jsrr | st | sti | str | rti | trap | res => cases h

/-- RTI without its collaborator faults and leaves the state as it is (45_system R140). -/
theorem exec_rti_fault {s : State} (h : s.supPresent = false) : exec .rti s = raise .privilegedInstruction s := by
  simp [exec, execRti, h]

/-- TRAP without its collaborator faults before it writes R7 (45_system R141). -/
theorem exec_trap_fault {s : State} (h : s.trapPresent = false) (vector : BitVec 8) :
    exec (.trap vector) s = raise .privilegedInstruction s := by
  simp [exec, execTrap, h]

/-- The handler of any other instruction but BR, if it dispatches to no collaborator, only carries COND along. -/
theorem report_exec_setCond {i : Instr} {s : State} (hres : i.resultReg = none)
    (hbr : ∀ n z p off, i ≠ .br n z p off) (hdisp : i.dispatches s = false) (c : Cond) :
    ∃ o t, report (exec i s) = some (o, t) ∧ report (exec i (s.setCond c)) = some (o, t.setCond c) := by
  cases i with
  | addReg | addImm | andReg | andImm | notReg | ld | ldi | ldr | lea => cases hres
  | br n z p off => exact absurd rfl (hbr n z p off)
  | jmp | jsr | jsrr | st | sti | str => exact ⟨.continued, _, rfl, rfl⟩
  | res => exact ⟨.fault .illegalOpcode, s, rfl, rfl⟩
  | rti => exact ⟨.fault .privilegedInstruction, s, congrArg report (exec_rti_fault hdisp),
      congrArg report (exec_rti_fault (s := s.setCond c) hdisp)⟩
  | trap v => exact ⟨.fault .privilegedInstruction, s, congrArg report (exec_trap_fault hdisp v),
      congrArg report (exec_trap_fault (s := s.setCond c) hdisp v)⟩

/-- Settles O22: with U a BR is not taken; a flag-affecting instruction leaves the same state whatever COND was, and
any other leaves states that differ in COND only. -/
theorem condIsReadOnlyByBr : Obligations.CondIsReadOnlyByBr := by
  unfold Obligations.CondIsReadOnlyByBr
  refine ⟨fun n z p off s hU => by simp [exec, execBr, hU], fun i s c hbr hdisp => ?_⟩
  cases hres : i.resultReg with
  | some d =>
    obtain ⟨v, hv⟩ := exec_result hres s
    refine ⟨.continued, s.writeResult d v, s.writeResult d v, ?_, ?_, rfl, fun _ => rfl, fun _ => rfl⟩
    · rw [hv]; rfl
    · rw [exec_setCond_of_result hres, hv]; rfl
  | none =>
    obtain ⟨o, t, ht, hu⟩ := report_exec_setCond hres hbr hdisp c
    exact ⟨o, t, t.setCond c, ht, hu, t.setCond_pc c, t.setCond_reg c, t.setCond_read c⟩

end Sys2Proof.Machine
end

section
/-! PROOFS. What later writes leave of a memory word (20_memory R42). -/

namespace Sys2Proof.Machine

/-- Writes to other addresses leave a word as it was: induction on the writes, `State.read_write_ne` for each. -/
theorem State.read_writes_ne (s : State) {a : Word} (later : List (Word × Word)) (h : ∀ c ∈ later, c.1 ≠ a) :
    (later.foldl (fun u c => u.write c.1 c.2) s).read a = s.read a := by
  induction later generalizing s with
  | nil => rfl
  | cons c later ih =>
    obtain ⟨hc, hlater⟩ := List.forall_mem_cons.mp h
    rw [List.foldl_cons, ih _ hlater, s.read_write_ne c.2 hc.symm]

/-- Settles O5: the later writes leave the word (`State.read_writes_ne`), so it reads as the first one left it. -/
theorem wordReadsAsWrittenUntilTheNextWrite : Obligations.WordReadsAsWrittenUntilTheNextWrite := by
  unfold Obligations.WordReadsAsWrittenUntilTheNextWrite
  refine fun s a v later hlater => ⟨?_, fun b hb => s.read_write_ne v hb⟩
  rw [State.read_writes_ne _ later hlater, s.read_write_same a v]

end Sys2Proof.Machine
end

section
/-! PROOFS. The opcode map, and which words are illegal: the decoder gives RES for opcode 13 only, and no other
instruction raises IllegalOpcode (30_encoding R62, R78). -/

namespace Sys2Proof

/-- Settles O8: the map evaluated at its sixteen values. -/
theorem opcodeMapIsTheDocuments : Obligations.OpcodeMapIsTheDocuments := by
  unfold Obligations.OpcodeMapIsTheDocuments
  decide

/-- Of the sixteen opcodes 13 alone is RES (30_encoding R62). -/
theorem opcodeOf_eq_res_iff (f : BitVec 4) : opcodeOf f = .res ↔ f.toNat = 13 := by
  revert f
  decide

/-- Each opcode decodes to instructions of its own, RES among them (30_encoding R61). -/
theorem decode_eq_res_iff_opcodeOf (w : Word) : decode w = .res ↔ opcodeOf (bits w 15 12) = .res := by
  unfold decode
  cases opcodeOf (bits w 15 12) with
  | add | jsr | and => dsimp only; split <;> simp
  | res => simp
  | br | ld | st | ldr | str | rti | not | ldi | sti | jmp | lea | trap => simp

/-- The words that decode to RES, by number (30_encoding R78). -/
theorem decode_eq_res_iff (w : Word) : decode w = .res ↔ 0xD000 ≤ w.toNat ∧ w.toNat ≤ 0xDFFF := by
  have hw := w.isLt
  rw [decode_eq_res_iff_opcodeOf, opcodeOf_eq_res_iff, toNat_bits]
  omega

end Sys2Proof

namespace Sys2Proof.Machine

/-- A dispatch never ends in a fault (60_exceptions R162, R165). -/
theorem report_finish_ne_fault (a : Answer) (s : State) (r : Reason) (t : State) :
    report (finish a s) ≠ some (.fault r, t) := by
  intro h
  obtain ⟨-, ho | ho⟩ := report_finish h <;> cases ho

/-- Every way a handler can fault: RES, or RTI or TRAP without the collaborator it needs (60_exceptions R150
to R153). -/
theorem exec_fault_cases {i : Instr} {s t : State} {r : Reason} (h : report (exec i s) = some (.fault r, t)) :
    (r = .illegalOpcode ∧ i = .res) ∨
    (r = .privilegedInstruction ∧ i = .rti ∧ s.supPresent = false) ∨
    (r = .privilegedInstruction ∧ (∃ v, i = .trap v) ∧ s.trapPresent = false) := by
  cases i with
  | addReg | addImm | andReg | andImm | notReg | ld | ldi | ldr | lea => cases h
  | st | sti | str | br | jmp | jsr | jsrr => cases h
  | res => cases h; exact .inl ⟨rfl, rfl⟩
  | rti =>
    cases hp : s.supPresent with
    | true => exact absurd (exec_rti_dispatch hp ▸ h) (report_finish_ne_fault _ _ r t)
    | false => rw [exec_rti_fault hp] at h; cases h; exact .inr (.inl ⟨rfl, rfl, rfl⟩)
  | trap v =>
    cases hp : s.trapPresent with
    | true => exact absurd (exec_trap_dispatch hp v ▸ h) (report_finish_ne_fault _ _ r t)
    | false => rw [exec_trap_fault hp] at h; cases h; exact .inr (.inr ⟨rfl, ⟨v, rfl⟩, rfl⟩)

/-- RES raises IllegalOpcode in every state, and no other instruction does (45_system R142). -/
theorem exec_illegalOpcode_iff (i : Instr) (s : State) :
    (∃ t, report (exec i s) = some (.fault .illegalOpcode, t)) ↔ i = .res := by
  constructor
  · rintro ⟨t, h⟩
    obtain ⟨-, hres⟩ | ⟨hr, -⟩ | ⟨hr, -⟩ := exec_fault_cases h
    · exact hres
    · cases hr
    · cases hr
  · rintro rfl
    exact ⟨s, rfl⟩

/-- Settles O17: RES alone raises IllegalOpcode (`exec_illegalOpcode_iff`), and the words 0xD000 to 0xDFFF alone decode
to RES (`decode_eq_res_iff`). -/
theorem illegalOpcodeExactlyOnOpcodeThirteen : Obligations.IllegalOpcodeExactlyOnOpcodeThirteen := by
  unfold Obligations.IllegalOpcodeExactlyOnOpcodeThirteen
  exact fun s => (exec_illegalOpcode_iff (decode s.fetch) s.advance).trans (decode_eq_res_iff s.fetch)

end Sys2Proof.Machine
end

section
/-! PROOFS. The cycle and the run loop: what a step runs, what a cycle depends on, and where the loop stops
(40_cycle R90, R96, R98). -/

namespace Sys2Proof.Machine

/-- Settles O14: a step is the handler of the decoded word by definition, and the hypotheses name word and
instruction. -/
theorem stepRunsTheDecodedInstruction : Obligations.StepRunsTheDecodedInstruction := by
  rintro s w i rfl rfl
  rfl

/-! ### The run loop -/

/-- A loop of one cycle is that cycle. -/
theorem runLoop_one (s : State) : runLoop 1 s = step s := by
  rw [runLoop]
  cases step s <;> rfl

/-- The loop ends in a stop at its first cycle or after it (40_cycle R96). -/
theorem runLoop_succ_eq_fault {k : Nat} {s : State} {f : Fault} :
    runLoop (k + 1) s = .fault f ↔ step s = .fault f ∨ ∃ t, step s = .next t ∧ runLoop k t = .fault f := by
  rw [runLoop]
  cases step s <;> simp

/-- The loop goes on only through a first cycle that continues (40_cycle R96). -/
theorem runLoop_succ_eq_next {k : Nat} {s t : State} :
    runLoop (k + 1) s = .next t ↔ ∃ m, step s = .next m ∧ runLoop k m = .next t := by
  rw [runLoop]
  cases step s <;> simp

/-- A loop that has stopped stops alike under every greater bound: the cycles up to the stop are the same. -/
theorem runLoop_fault_of_le {j k : Nat} {s : State} {f : Fault} (h : runLoop j s = .fault f) (hjk : j ≤ k) :
    runLoop k s = .fault f := by
  induction j generalizing k s with
  | zero => cases h
  | succ j ih =>
    obtain ⟨k, rfl⟩ := Nat.exists_eq_add_of_le' (Nat.le_of_add_left_le hjk)
    obtain hstop | ⟨t, hstep, hrest⟩ := runLoop_succ_eq_fault.mp h
    · exact runLoop_fault hstop
    · rw [runLoop_next hstep]
      exact ih hrest (Nat.le_of_succ_le_succ hjk)

/-- A loop that has continued for `k` cycles ends, with one more, as the cycle after them does. -/
theorem runLoop_succ_of_next {k : Nat} {s t : State} (h : runLoop k s = .next t) : runLoop (k + 1) s = step t := by
  induction k generalizing s with
  | zero => cases h; exact runLoop_one _
  | succ k ih =>
    obtain ⟨m, hstep, hrest⟩ := runLoop_succ_eq_next.mp h
    rw [runLoop_next hstep]
    exact ih hrest

/-- Settles O28: a stop is kept under every greater bound, and after `k` cycles that continue the next one decides;
each by induction on the cycles, one off the front. -/
theorem runStopsAtTheFirstOtherOutcome : Obligations.RunStopsAtTheFirstOtherOutcome :=
  ⟨fun _ _ _ _ => runLoop_fault_of_le, fun _ _ _ => runLoop_succ_of_next⟩

/-! ### States that agree on all a cycle may depend on -/

/-- The two states agree, as they are read, on R0 to R7, PC, COND, MEM and the install flags (40_cycle R98); the form
of memory and the collaborators may differ. -/
structure Agree (s u : State) : Prop where
  reg (r : RegIdx) : u.reg r = s.reg r
  pc : u.pc = s.pc
  cond : u.cond = s.cond
  read (a : Word) : u.read a = s.read a
  trapPresent : u.trapPresent = s.trapPresent
  supPresent : u.supPresent = s.supPresent

theorem agree_iff (s u : State) : Agree s u ↔ SameArch s u ∧ SameFlags s u :=
  ⟨fun h => ⟨⟨h.reg, h.pc, h.cond, h.read⟩, h.trapPresent, h.supPresent⟩,
    fun ⟨⟨reg, pc, cond, read⟩, trapPresent, supPresent⟩ => ⟨reg, pc, cond, read, trapPresent, supPresent⟩⟩

namespace Agree

variable {s u : State} {v w : Word}

/-! Each update with equal values keeps the agreement. -/

theorem setPc (h : Agree s u) (hv : w = v) : Agree (s.setPc v) (u.setPc w) := { h with pc := hv }

theorem setCond (h : Agree s u) {c d : Cond} (hc : d = c) : Agree (s.setCond c) (u.setCond d) := { h with cond := hc }

theorem setReg (h : Agree s u) (d : RegIdx) (hv : w = v) : Agree (s.setReg d v) (u.setReg d w) where
  reg r := by
    by_cases hr : r = d
    · rw [hr, u.setReg_reg_same, s.setReg_reg_same, hv]
    · rw [u.setReg_reg_ne w hr, s.setReg_reg_ne v hr, h.reg]
  __ := h

theorem write (h : Agree s u) {a b : Word} (ha : b = a) (hv : w = v) : Agree (s.write a v) (u.write b w) where
  read x := by
    subst ha hv
    by_cases hx : x = b
    · rw [hx, u.read_write_same, s.read_write_same]
    · rw [u.read_write_ne w hx, s.read_write_ne w hx, h.read]
  __ := h

theorem advance (h : Agree s u) : Agree s.advance u.advance := h.setPc (congrArg (· + 1) h.pc)

theorem linkPc (h : Agree s u) : Agree s.linkPc u.linkPc := h.setReg Config.link h.pc

theorem writeResult (h : Agree s u) (d : RegIdx) (hv : w = v) : Agree (s.writeResult d v) (u.writeResult d w) :=
  (h.setReg d hv).setCond (congrArg cc ((h.setReg d hv).reg d))

/-! What a handler computes from states that agree is equal. -/

theorem fetch (h : Agree s u) : u.fetch = s.fetch := by rw [State.fetch, h.pc, h.read, State.fetch]

theorem pcRelative (h : Agree s u) (off : Word) : pcRelative u off = pcRelative s off := congrArg (· + off) h.pc

theorem indirect (h : Agree s u) (off : Word) : indirect u off = indirect s off := by
  rw [Machine.indirect, h.pcRelative, h.read, Machine.indirect]

theorem baseOffset (h : Agree s u) (base : RegIdx) (off : Word) : baseOffset u base off = baseOffset s base off :=
  congrArg (· + off) (h.reg base)

end Agree

/-! ### What a cycle depends on -/

/-- The two cycles have the same outcome, and the states they leave agree. -/
def EndAlike (r q : Result) : Prop :=
  ∃ (o : CycleOutcome) (s u : State), report r = some (o, s) ∧ report q = some (o, u) ∧ Agree s u

theorem EndAlike.next {s u : State} (h : Agree s u) : EndAlike (.next s) (.next u) := ⟨.continued, s, u, rfl, rfl, h⟩

/-- The handler of an instruction that is not dispatched ends alike from states that agree: every value it writes is
computed from what they agree on, and a fault leaves them as they are. -/
theorem exec_endAlike {i : Instr} {s u : State} (h : Agree s u) (hd : i.dispatches s = false) :
    EndAlike (exec i s) (exec i u) := by
  cases i with
  | addReg dr sr1 sr2 => exact .next (h.writeResult dr (congrArg₂ (· + ·) (h.reg sr1) (h.reg sr2)))
  | addImm dr sr1 imm => exact .next (h.writeResult dr (congrArg (· + imm) (h.reg sr1)))
  | andReg dr sr1 sr2 => exact .next (h.writeResult dr (congrArg₂ (· &&& ·) (h.reg sr1) (h.reg sr2)))
  | andImm dr sr1 imm => exact .next (h.writeResult dr (congrArg (· &&& imm) (h.reg sr1)))
  | notReg dr sr => exact .next (h.writeResult dr (congrArg (~~~ ·) (h.reg sr)))
  | ld dr off => exact .next (h.writeResult dr (by rw [h.pcRelative, h.read]))
  | ldi dr off => exact .next (h.writeResult dr (by rw [h.indirect, h.read]))
  | ldr dr base off => exact .next (h.writeResult dr (by rw [h.baseOffset, h.read]))
  | lea dr off => exact .next (h.writeResult dr (h.pcRelative off))
  | st sr off => exact .next (h.write (h.pcRelative off) (h.reg sr))
  | sti sr off => exact .next (h.write (h.indirect off) (h.reg sr))
  | str sr base off => exact .next (h.write (h.baseOffset base off) (h.reg sr))
  | jmp base => exact .next (h.setPc (h.reg base))
  | jsr off => exact .next (h.linkPc.setPc (h.pcRelative off))
  | jsrr base => exact .next (h.linkPc.setPc (h.linkPc.reg base))
  | br n z p off =>
    rw [exec, exec, execBr, execBr, h.cond]
    split
    · exact .next (h.setPc (h.pcRelative off))
    · exact .next h
  | res => exact ⟨.fault .illegalOpcode, s, u, rfl, rfl, h⟩
  | rti =>
    rw [exec_rti_fault hd, exec_rti_fault (h.supPresent.trans hd)]
    exact ⟨.fault .privilegedInstruction, s, u, rfl, rfl, h⟩
  | trap v =>
    rw [exec_trap_fault hd, exec_trap_fault (h.trapPresent.trans hd)]
    exact ⟨.fault .privilegedInstruction, s, u, rfl, rfl, h⟩

/-- Whether an instruction is dispatched does not depend on the PC. -/
@[simp] theorem dispatches_advance (i : Instr) (s : State) : i.dispatches s.advance = i.dispatches s := by
  cases i <;> rfl

/-- Settles O26: states that agree fetch the same word, and the handler of the instruction it decodes to ends alike
from them once the PC is incremented (`exec_endAlike`). -/
theorem outcomeDependsOnlyOnArchitecturalState : Obligations.OutcomeDependsOnlyOnArchitecturalState := by
  unfold Obligations.OutcomeDependsOnlyOnArchitecturalState
  intro s u harch hflags hdisp
  have h : Agree s u := (agree_iff s u).mpr ⟨harch, hflags⟩
  obtain ⟨o, s', u', hs, hu, hagree⟩ :=
    exec_endAlike h.advance ((dispatches_advance (decode s.fetch) s).trans hdisp)
  refine ⟨o, s', u', hs, ?_, (agree_iff s' u').mp hagree⟩
  rw [step, h.fetch, hu]

end Sys2Proof.Machine
end

section
/-! PROOFS. The operate instructions: each handler is one destination write, and what that write changes and leaves
alone is said once (41_alu R102 to R106). -/

namespace Sys2Proof.Machine

/-- A destination write changes the destination and COND, nothing else (10_state R32, R33). -/
theorem State.writesResult_writeResult (s : State) (d : RegIdx) (v : Word) :
    WritesResult d v s (s.writeResult d v) := by
  have hinstance : SameInstance s (s.writeResult d v) :=
    ⟨⟨s.writeResult_trapPresent d v, s.writeResult_supPresent d v⟩, s.writeResult_trapFeed d v,
      s.writeResult_supFeed d v⟩
  exact ⟨s.writeResult_reg_same d v, fun _ hne => s.writeResult_reg_ne v hne, s.writeResult_cond d v,
    s.writeResult_pc d v, s.writeResult_read d v, hinstance⟩

/-! ### The handlers as destination writes -/

theorem exec_addReg (dr sr1 sr2 : RegIdx) (s : State) :
    exec (.addReg dr sr1 sr2) s = .next (s.writeResult dr (s.reg sr1 + s.reg sr2)) := rfl

theorem exec_addImm (dr sr1 : RegIdx) (imm : Word) (s : State) :
    exec (.addImm dr sr1 imm) s = .next (s.writeResult dr (s.reg sr1 + imm)) := rfl

theorem exec_andReg (dr sr1 sr2 : RegIdx) (s : State) :
    exec (.andReg dr sr1 sr2) s = .next (s.writeResult dr (s.reg sr1 &&& s.reg sr2)) := rfl

theorem exec_andImm (dr sr1 : RegIdx) (imm : Word) (s : State) :
    exec (.andImm dr sr1 imm) s = .next (s.writeResult dr (s.reg sr1 &&& imm)) := rfl

theorem exec_notReg (dr sr : RegIdx) (s : State) :
    exec (.notReg dr sr) s = .next (s.writeResult dr (~~~ s.reg sr)) := rfl

/-! ### The five forms -/

/-- Settles O31: the decoded form, and the destination write of the sum. -/
theorem addRegisterForm : Obligations.AddRegisterForm := by
  unfold Obligations.AddRegisterForm
  exact fun dr sr1 sr2 x s => ⟨decode_addReg dr sr1 sr2 x, _, exec_addReg dr sr1 sr2 s,
    s.writesResult_writeResult dr _⟩

/-- Settles O32: the decoded form, and the destination write of the sum with the sign-extended immediate. -/
theorem addImmediateForm : Obligations.AddImmediateForm := by
  unfold Obligations.AddImmediateForm
  exact fun dr sr1 imm5 s => ⟨decode_addImm dr sr1 imm5, _, exec_addImm dr sr1 (sext16 imm5) s,
    s.writesResult_writeResult dr _⟩

/-- Settles O33: the decoded form, and the destination write of the conjunction; DR reads as written, so its bits are
those of the conjunction. -/
theorem andRegisterForm : Obligations.AndRegisterForm := by
  unfold Obligations.AndRegisterForm
  refine fun dr sr1 sr2 x s => ⟨decode_andReg dr sr1 sr2 x, _, exec_andReg dr sr1 sr2 s,
    s.writesResult_writeResult dr _, fun k => ?_⟩
  rw [s.writeResult_reg_same, BitVec.getLsbD_and]

/-- Settles O34: the decoded form, and the destination write of the conjunction with the sign-extended immediate. -/
theorem andImmediateForm : Obligations.AndImmediateForm := by
  unfold Obligations.AndImmediateForm
  exact fun dr sr1 imm5 s => ⟨decode_andImm dr sr1 imm5, _, exec_andImm dr sr1 (sext16 imm5) s,
    s.writesResult_writeResult dr _⟩

/-- Settles O35: the decoded form, and the destination write of the complement, which is 0xFFFF minus the operand. -/
theorem notForm : Obligations.NotForm := by
  unfold Obligations.NotForm
  intro dr sr x s
  have hnot : 0xFFFF - s.reg sr = ~~~ s.reg sr := BitVec.allOnes_sub_eq_not (s.reg sr)
  rw [hnot]
  exact ⟨decode_notReg dr sr x, _, exec_notReg dr sr s, s.writesResult_writeResult dr _⟩

end Sys2Proof.Machine
end

section
/-! PROOFS. The control transfers: what a jump and a call change and leave alone is said once, when a BR is taken,
and the return through R7 (42_control R110 to R112, R115). -/

namespace Sys2Proof.Machine

/-- A write of the PC changes nothing else. -/
theorem State.jumpsTo_setPc (s : State) (v : Word) : JumpsTo v s (s.setPc v) := by
  have hinstance : SameInstance s (s.setPc v) :=
    ⟨⟨s.setPc_trapPresent v, s.setPc_supPresent v⟩, s.setPc_trapFeed v, s.setPc_supFeed v⟩
  exact ⟨s.setPc_pc v, s.setPc_reg v, s.setPc_cond v, s.setPc_read v, hinstance⟩

/-- A link followed by a write of the PC changes R7 and the PC, nothing else (42_control R112, R113). -/
theorem State.callsTo_linkPc_setPc (s : State) (v : Word) : CallsTo v s (s.linkPc.setPc v) := by
  obtain ⟨hpc, hregs, hcond, hmem, hinstance⟩ := s.linkPc.jumpsTo_setPc v
  exact ⟨hpc, (hregs 7).trans s.linkPc_reg_link, fun r hne => (hregs r).trans (s.linkPc_reg_ne hne), hcond, hmem,
    hinstance⟩

/-! ### The handlers as writes of the PC -/

theorem exec_br (n z p : Bool) (off : Word) (s : State) :
    exec (.br n z p off) s = .next (if branchTaken n z p s.cond then s.setPc (s.pc + off) else s) := rfl

theorem exec_jmp (base : RegIdx) (s : State) : exec (.jmp base) s = .next (s.setPc (s.reg base)) := rfl

theorem exec_jsr (off : Word) (s : State) : exec (.jsr off) s = .next (s.linkPc.setPc (s.pc + off)) := rfl

/-- A cycle of JMP: the increment of the PC is overwritten. -/
theorem step_jmp {s : State} {base : RegIdx} (h : decode s.fetch = .jmp base) :
    step s = .next (s.setPc (s.reg base)) := by
  rw [step, h, exec_jmp]; rfl

/-- The mask of a BR names the flag (42_control R110). -/
theorem branchTaken_iff (n z p : Bool) (c : Cond) :
    branchTaken n z p c = true ↔
      (c = .negative ∧ n = true) ∨ (c = .zero ∧ z = true) ∨ (c = .positive ∧ p = true) := by
  cases c with
  | uninitialized => simp
  | positive | zero | negative => revert n z p; decide

/-! ### BR, JMP, JSR -/

/-- Settles O37: the decoded form, and the two branches of the handler, told apart by `branchTaken_iff`. -/
theorem brForm : Obligations.BrForm := by
  unfold Obligations.BrForm
  refine fun n z p off9 s => ⟨decode_br n z p off9, _, exec_br n z p (sext16 off9) s, fun htaken => ?_,
    fun hnot => ?_⟩
  · rw [if_pos ((branchTaken_iff n z p s.cond).mpr htaken)]
    exact s.jumpsTo_setPc _
  · rw [if_neg (mt (branchTaken_iff n z p s.cond).mp hnot)]
    exact s.jumpsTo_setPc s.pc

/-- Settles O39: the decoded form, and the write of the base register to the PC. -/
theorem jmpForm : Obligations.JmpForm := by
  unfold Obligations.JmpForm
  exact fun x base y s => ⟨decode_jmp x base y, _, exec_jmp base s, s.jumpsTo_setPc _⟩

/-- Settles O40: the decoded form, and the link followed by the write of the target to the PC. -/
theorem jsrForm : Obligations.JsrForm := by
  unfold Obligations.JsrForm
  exact fun off11 s => ⟨decode_jsr off11, _, exec_jsr (sext16 off11) s, s.callsTo_linkPc_setPc _⟩

/-! ### The return through R7 -/

/-- After JSR, JSRR or a dispatched TRAP whose collaborator does not write R7, R7 holds the PC the handler saw
(10_state R24). -/
theorem exec_links_reg_link {i : Instr} {s t : State} {o : CycleOutcome} (hlinks : i.links = true)
    (hdisp : i.dispatches s = true ∨ ∀ v, i ≠ .trap v) (hpoke : ∀ v, Poke.reg 7 v ∉ i.changes s)
    (h : report (exec i s) = some (o, t)) : t.reg 7 = s.pc := by
  cases i with
  | jsr | jsrr => cases h; exact s.linkPc_reg_link
  | trap vector =>
    have hpresent : s.trapPresent = true := hdisp.resolve_right fun hne => hne vector rfl
    rw [exec_trap_dispatch hpresent] at h
    obtain ⟨rfl, -⟩ := report_finish h
    rw [Instr.changes, if_pos hpresent] at hpoke
    exact (State.pokes_reg _ _ hpoke).trans s.linkPc_reg_link
  | addReg | addImm | andReg | andImm | notReg | ld | ldi | ldr | lea => cases hlinks
  | st | sti | str | br | jmp | rti | res => cases hlinks

/-- Settles O42: the handler of the call leaves in R7 the incremented PC it saw (`exec_links_reg_link`), and a JMP
through R7 takes it from there (`step_jmp`). -/
theorem callThenJmpThroughR7Returns : Obligations.CallThenJmpThroughR7Returns := by
  unfold Obligations.CallThenJmpThroughR7Returns
  intro s t u o hlinks hdisp hpoke hstep
  rw [← dispatches_advance] at hdisp
  have hlink : t.reg 7 = s.pc + 1 := exec_links_reg_link hlinks hdisp hpoke hstep
  exact ⟨hlink, fun hjmp hheld => ⟨_, step_jmp hjmp, hheld.trans hlink⟩⟩

end Sys2Proof.Machine
end

section
/-! PROOFS. The loads: each handler is one destination write, of the memory word at its effective address (43_load
R120 to R122). -/

namespace Sys2Proof.Machine

/-! ### The handlers as destination writes -/

theorem exec_ld (dr : RegIdx) (off : Word) (s : State) :
    exec (.ld dr off) s = .next (s.writeResult dr (s.read (s.pc + off))) := rfl

theorem exec_ldi (dr : RegIdx) (off : Word) (s : State) :
    exec (.ldi dr off) s = .next (s.writeResult dr (s.read (s.read (s.pc + off)))) := rfl

theorem exec_ldr (dr base : RegIdx) (off : Word) (s : State) :
    exec (.ldr dr base off) s = .next (s.writeResult dr (s.read (s.reg base + off))) := rfl

/-! ### LD, LDI, LDR -/

/-- Settles O43: the decoded form, and the destination write of the word at the PC-relative address. -/
theorem ldForm : Obligations.LdForm := by
  unfold Obligations.LdForm
  exact fun dr off9 s => ⟨decode_ld dr off9, _, exec_ld dr (sext16 off9) s, s.writesResult_writeResult dr _⟩

/-- Settles O44: the decoded form, and the destination write of the word the pointer at the PC-relative address
leads to. -/
theorem ldiForm : Obligations.LdiForm := by
  unfold Obligations.LdiForm
  exact fun dr off9 s => ⟨decode_ldi dr off9, _, exec_ldi dr (sext16 off9) s, s.writesResult_writeResult dr _⟩

/-- Settles O45: the decoded form, and the destination write of the word at base plus offset; the address is computed
from the state before the write, so DR may be the base. -/
theorem ldrForm : Obligations.LdrForm := by
  unfold Obligations.LdrForm
  exact fun dr base off6 s => ⟨decode_ldr dr base off6, _, exec_ldr dr base (sext16 off6) s,
    s.writesResult_writeResult dr _⟩

end Sys2Proof.Machine
end

section
/-! PROOFS. The stores: each handler is one memory write, of the source register at its effective address (44_store
R130 to R133). -/

namespace Sys2Proof.Machine

/-- A memory write changes the word at its address, nothing else (44_store R133). -/
theorem State.storesWord_write (s : State) (ea v : Word) : StoresWord ea v s (s.write ea v) := by
  have hinstance : SameInstance s (s.write ea v) :=
    ⟨⟨s.write_trapPresent ea v, s.write_supPresent ea v⟩, s.write_trapFeed ea v, s.write_supFeed ea v⟩
  exact ⟨s.read_write_same ea v, fun _ hne => s.read_write_ne v hne, s.write_reg ea v, s.write_cond ea v,
    s.write_pc ea v, hinstance⟩

/-- The handler of a store changes the word at its store address, nothing else (44_store R133). -/
theorem exec_storesWord {i : Instr} {s : State} {ea : Word} {sr : RegIdx} (ha : i.storeAddress s = some ea)
    (hr : i.storeReg = some sr) : ∃ t, exec i s = .next t ∧ StoresWord ea (s.reg sr) s t :=
  ⟨_, exec_store ha hr, s.storesWord_write ea (s.reg sr)⟩

/-! ### ST, STI, STR: the decoded form and the store address of each -/

/-- Settles O47: ST stores at the PC-relative address. -/
theorem stForm : Obligations.StForm := by
  unfold Obligations.StForm
  exact fun sr off9 s => ⟨decode_st sr off9, exec_storesWord rfl rfl⟩

/-- Settles O48: STI stores at the address the pointer word holds in the state before the write. -/
theorem stiForm : Obligations.StiForm := by
  unfold Obligations.StiForm
  exact fun sr off9 s => ⟨decode_sti sr off9, exec_storesWord rfl rfl⟩

/-- Settles O49: STR stores at base plus offset; both registers are read before the write, so SR may be the base. -/
theorem strForm : Obligations.StrForm := by
  unfold Obligations.StrForm
  exact fun sr base off6 s => ⟨decode_str sr base off6, exec_storesWord rfl rfl⟩

end Sys2Proof.Machine
end

section
/-! PROOFS. The opcode table against decoder and encoder: every word is of exactly one row, the row of the instruction
it decodes to, and that instruction's own word agrees with it in every bit the row names (30_encoding R61 to R79). -/

namespace Sys2Proof

/-- Settles O9: one lemma per form. -/
theorem decodeOfEncodeIsTheInstruction : Obligations.DecodeOfEncodeIsTheInstruction := by
  unfold Obligations.DecodeOfEncodeIsTheInstruction
  intro i
  cases i with
  | br n z p off => exact Laws.EncodeDecode.br n z p off
  | addReg dr sr1 sr2 => exact Laws.EncodeDecode.addReg dr sr1 sr2
  | addImm dr sr1 imm => exact Laws.EncodeDecode.addImm dr sr1 imm
  | ld dr off => exact Laws.EncodeDecode.ld dr off
  | st sr off => exact Laws.EncodeDecode.st sr off
  | jsrr base => exact Laws.EncodeDecode.jsrr base
  | jsr off => exact Laws.EncodeDecode.jsr off
  | andReg dr sr1 sr2 => exact Laws.EncodeDecode.andReg dr sr1 sr2
  | andImm dr sr1 imm => exact Laws.EncodeDecode.andImm dr sr1 imm
  | ldr dr base off => exact Laws.EncodeDecode.ldr dr base off
  | str sr base off => exact Laws.EncodeDecode.str sr base off
  | rti => exact Laws.EncodeDecode.rti
  | notReg dr sr => exact Laws.EncodeDecode.notReg dr sr
  | ldi dr off => exact Laws.EncodeDecode.ldi dr off
  | sti sr off => exact Laws.EncodeDecode.sti sr off
  | jmp base => exact Laws.EncodeDecode.jmp base
  | res => exact Laws.EncodeDecode.res
  | lea dr off => exact Laws.EncodeDecode.lea dr off
  | trap vector => exact Laws.EncodeDecode.trap vector

/-- Settles O13: the decoder evaluated at the nineteen words. -/
theorem workedWordsDecodeAsTheSpecSays : Obligations.WorkedWordsDecodeAsTheSpecSays := by
  unfold Obligations.WorkedWordsDecodeAsTheSpecSays
  decide

/-- The instruction a word decodes to is well-formed: its signed operand, if it has one, is a sign-extended field. -/
theorem decode_wf (w : Word) : (decode w).wf = true := by
  unfold decode
  cases opcodeOf (bits w 15 12) with
  | br | ld | st | ldr | str | ldi | sti | lea => exact fitsSigned_sext16 (by decide) _
  | rti | not | jmp | res | trap => rfl
  | jsr | add | and =>
    dsimp only
    split
    · exact fitsSigned_sext16 (by decide) _
    · rfl

/-! ### The opcode field -/

/-- The value of the opcode field that maps to an identifier (30_encoding R62). -/
def Opcode.code : Opcode → BitVec 4
  | .br => 0x0 | .add => 0x1 | .ld => 0x2 | .st => 0x3 | .jsr => 0x4 | .and => 0x5 | .ldr => 0x6 | .str => 0x7
  | .rti => 0x8 | .not => 0x9 | .ldi => 0xA | .sti => 0xB | .jmp => 0xC | .res => 0xD | .lea => 0xE | .trap => 0xF

/-- The opcode map is one to one (30_encoding R62). -/
theorem code_opcodeOf (f : BitVec 4) : (opcodeOf f).code = f := by
  revert f
  decide

/-- The opcode map by the value of the field (30_encoding R62). -/
theorem opcodeOf_eq_iff (f : BitVec 4) (o : Opcode) : opcodeOf f = o ↔ f = o.code := by
  constructor
  · rintro rfl
    exact (code_opcodeOf f).symm
  · rintro rfl
    cases o <;> rfl

/-- The opcode field of a word from its identifier. -/
theorem bits_opcode {w : Word} {o : Opcode} (h : opcodeOf (bits w 15 12) = o) : bits w 15 12 = o.code :=
  (opcodeOf_eq_iff _ o).mp h

/-- The field that holds one bit. -/
theorem toNat_ofBool_bit (w : Word) (i : Nat) : (BitVec.ofBool (bit w i)).toNat = w.toNat / 2 ^ i % 2 := by
  rw [BitVec.toNat_ofBool, bit_eq]
  rcases Nat.mod_two_eq_zero_or_one (w.toNat / 2 ^ i) with h | h <;> simp [h]

/-! ### A word is the concatenation of its fields, for each way the rows of 30_encoding R64 to R74 cut it -/

section
variable {w : Word} {k : BitVec 4} (hk : bits w 15 12 = k)
include hk

theorem concat_low12 : k ++ bits w 11 0 = w :=
  BitVec.eq_of_toNat_eq (by have := w.isLt; rw [← hk]; simp only [toNat_concat, toNat_bits]; omega)

theorem concat_vector : k ++ bits w 11 8 ++ bits w 7 0 = w :=
  BitVec.eq_of_toNat_eq (by have := w.isLt; rw [← hk]; simp only [toNat_concat, toNat_bits]; omega)

theorem concat_off9 : k ++ bits w 11 9 ++ bits w 8 0 = w :=
  BitVec.eq_of_toNat_eq (by have := w.isLt; rw [← hk]; simp only [toNat_concat, toNat_bits]; omega)

theorem concat_off6 : k ++ bits w 11 9 ++ bits w 8 6 ++ bits w 5 0 = w :=
  BitVec.eq_of_toNat_eq (by have := w.isLt; rw [← hk]; simp only [toNat_concat, toNat_bits]; omega)

theorem concat_br :
    k ++ BitVec.ofBool (bit w 11) ++ BitVec.ofBool (bit w 10) ++ BitVec.ofBool (bit w 9) ++ bits w 8 0 = w :=
  BitVec.eq_of_toNat_eq
    (by have := w.isLt; rw [← hk]; simp only [toNat_concat, toNat_bits, toNat_ofBool_bit]; omega)

theorem concat_off11 {b : Bool} (hb : bit w 11 = b) : k ++ BitVec.ofBool b ++ bits w 10 0 = w :=
  BitVec.eq_of_toNat_eq
    (by have := w.isLt; rw [← hk, ← hb]; simp only [toNat_concat, toNat_bits, toNat_ofBool_bit]; omega)

theorem concat_base {b : Bool} (hb : bit w 11 = b) :
    k ++ BitVec.ofBool b ++ bits w 10 9 ++ bits w 8 6 ++ bits w 5 0 = w :=
  BitVec.eq_of_toNat_eq
    (by have := w.isLt; rw [← hk, ← hb]; simp only [toNat_concat, toNat_bits, toNat_ofBool_bit]; omega)

theorem concat_imm5 {b : Bool} (hb : bit w 5 = b) :
    k ++ bits w 11 9 ++ bits w 8 6 ++ BitVec.ofBool b ++ bits w 4 0 = w :=
  BitVec.eq_of_toNat_eq
    (by have := w.isLt; rw [← hk, ← hb]; simp only [toNat_concat, toNat_bits, toNat_ofBool_bit]; omega)

theorem concat_sr2 {b : Bool} (hb : bit w 5 = b) :
    k ++ bits w 11 9 ++ bits w 8 6 ++ BitVec.ofBool b ++ bits w 4 3 ++ bits w 2 0 = w :=
  BitVec.eq_of_toNat_eq
    (by have := w.isLt; rw [← hk, ← hb]; simp only [toNat_concat, toNat_bits, toNat_ofBool_bit]; omega)

/-! ### What the masks of the table, and the complements of its ignored bits, keep of a word -/

theorem and_F000 : w &&& 0xF000 = k ++ 0#12 := by
  conv_lhs => rw [← concat_low12 hk]
  show _ &&& (BitVec.allOnes 4 ++ 0#12) = _
  rw [BitVec.and_append, BitVec.and_allOnes, BitVec.and_zero]

theorem and_F800 {b : Bool} (hb : bit w 11 = b) : w &&& 0xF800 = k ++ BitVec.ofBool b ++ 0#11 := by
  conv_lhs => rw [← concat_off11 hk hb]
  show _ &&& (BitVec.allOnes 4 ++ BitVec.allOnes 1 ++ 0#11) = _
  iterate 2 rw [BitVec.and_append]
  simp only [BitVec.and_allOnes, BitVec.and_zero]

theorem and_F020 {b : Bool} (hb : bit w 5 = b) : w &&& 0xF020 = k ++ 0#3 ++ 0#3 ++ BitVec.ofBool b ++ 0#5 := by
  conv_lhs => rw [← concat_imm5 hk hb]
  show _ &&& (BitVec.allOnes 4 ++ 0#3 ++ 0#3 ++ BitVec.allOnes 1 ++ 0#5) = _
  iterate 4 rw [BitVec.and_append]
  simp only [BitVec.and_allOnes, BitVec.and_zero]

theorem and_not_0018 {b : Bool} (hb : bit w 5 = b) :
    w &&& ~~~0x0018 = k ++ bits w 11 9 ++ bits w 8 6 ++ BitVec.ofBool b ++ 0#2 ++ bits w 2 0 := by
  conv_lhs => rw [← concat_sr2 hk hb]
  show _ &&& (BitVec.allOnes 4 ++ BitVec.allOnes 3 ++ BitVec.allOnes 3 ++ BitVec.allOnes 1 ++ 0#2 ++
    BitVec.allOnes 3) = _
  iterate 5 rw [BitVec.and_append]
  simp only [BitVec.and_allOnes, BitVec.and_zero]

theorem and_not_063F {b : Bool} (hb : bit w 11 = b) :
    w &&& ~~~0x063F = k ++ BitVec.ofBool b ++ 0#2 ++ bits w 8 6 ++ 0#6 := by
  conv_lhs => rw [← concat_base hk hb]
  show _ &&& (BitVec.allOnes 4 ++ BitVec.allOnes 1 ++ 0#2 ++ BitVec.allOnes 3 ++ 0#6) = _
  iterate 4 rw [BitVec.and_append]
  simp only [BitVec.and_allOnes, BitVec.and_zero]

theorem and_not_0FFF : w &&& ~~~0x0FFF = k ++ 0#12 := and_F000 hk

theorem and_not_003F : w &&& ~~~0x003F = k ++ bits w 11 9 ++ bits w 8 6 ++ 0#6 := by
  conv_lhs => rw [← concat_off6 hk]
  show _ &&& (BitVec.allOnes 4 ++ BitVec.allOnes 3 ++ BitVec.allOnes 3 ++ 0#6) = _
  iterate 3 rw [BitVec.and_append]
  simp only [BitVec.and_allOnes, BitVec.and_zero]

theorem and_not_0E3F : w &&& ~~~0x0E3F = k ++ 0#3 ++ bits w 8 6 ++ 0#6 := by
  conv_lhs => rw [← concat_off6 hk]
  show _ &&& (BitVec.allOnes 4 ++ 0#3 ++ BitVec.allOnes 3 ++ 0#6) = _
  iterate 3 rw [BitVec.and_append]
  simp only [BitVec.and_allOnes, BitVec.and_zero]

theorem and_not_0F00 : w &&& ~~~0x0F00 = k ++ 0#4 ++ bits w 7 0 := by
  conv_lhs => rw [← concat_vector hk]
  show _ &&& (BitVec.allOnes 4 ++ 0#4 ++ BitVec.allOnes 8) = _
  iterate 2 rw [BitVec.and_append]
  simp only [BitVec.and_allOnes, BitVec.and_zero]

end

/-! ### The row of an instruction -/

/-- The number of an instruction's row in the opcode table. -/
def Instr.rowNumber : Instr → Fin 19
  | .br _ _ _ _ => 0 | .addReg _ _ _ => 1 | .addImm _ _ _ => 2 | .ld _ _ => 3 | .st _ _ => 4 | .jsrr _ => 5
  | .jsr _ => 6 | .andReg _ _ _ => 7 | .andImm _ _ _ => 8 | .ldr _ _ _ => 9 | .str _ _ _ => 10 | .rti => 11
  | .notReg _ _ => 12 | .ldi _ _ => 13 | .sti _ _ => 14 | .jmp _ => 15 | .res => 16 | .lea _ _ => 17 | .trap _ => 18

/-- The row of an instruction in the opcode table. -/
def Instr.row (i : Instr) : Row := opcodeTable.get i.rowNumber

theorem Instr.row_mem (i : Instr) : i.row ∈ opcodeTable := List.get_mem _ _

theorem Instr.row_mnemonic (i : Instr) : i.row.mnemonic = i.mnemonic := by cases i <;> rfl

theorem Row.matches_iff (row : Row) (w : Word) : row.matches w = true ↔ w &&& row.mask = row.pattern := beq_iff_eq

/-- A word matches the row of the instruction it decodes to. -/
theorem decode_row_matches (w : Word) : (decode w).row.matches w = true := by
  rw [Row.matches_iff]
  unfold decode
  cases hop : opcodeOf (bits w 15 12) with
  | br | ld | st | ldr | str | rti | not | ldi | sti | jmp | res | lea | trap => exact and_F000 (bits_opcode hop)
  | add | and => cases hbit : bit w 5 <;> exact and_F020 (bits_opcode hop) hbit
  | jsr => cases hbit : bit w 11 <;> exact and_F800 (bits_opcode hop) hbit

/-- Two rows that fix the same bits alike are one row. -/
theorem opcodeTable_disjoint : ∀ row ∈ opcodeTable, ∀ row' ∈ opcodeTable,
    row.pattern &&& row'.mask = row'.pattern &&& row.mask → row = row' := by
  decide

/-- A word matches one row only. -/
theorem Row.eq_of_matches {row row' : Row} {w : Word} (hmem : row ∈ opcodeTable) (hmem' : row' ∈ opcodeTable)
    (h : row.matches w = true) (h' : row'.matches w = true) : row = row' := by
  rw [Row.matches_iff] at h h'
  refine opcodeTable_disjoint row hmem row' hmem' ?_
  rw [← h, ← h', BitVec.and_assoc, BitVec.and_assoc, BitVec.and_comm row.mask]

/-- The row a word matches is that of the instruction it decodes to. -/
theorem Row.eq_decode_row {row : Row} {w : Word} (hmem : row ∈ opcodeTable) (h : row.matches w = true) :
    row = (decode w).row :=
  Row.eq_of_matches hmem (Instr.row_mem _) h (decode_row_matches w)

/-- Settles O11: the row is that of the decoded instruction, and no other row matches (`Row.eq_decode_row`). -/
theorem opcodeTablePartitionsTheWords : Obligations.OpcodeTablePartitionsTheWords := by
  unfold Obligations.OpcodeTablePartitionsTheWords
  exact fun w => ⟨(decode w).row, Instr.row_mem _, decode_row_matches w, Instr.row_mnemonic _,
    fun _ => Row.eq_decode_row⟩

/-! ### The word of a decoded instruction -/

/-- What the encoder fills the ignored bits of a row with: ones in NOT, else zeros (30_encoding R84; log 17). -/
def Row.filler (row : Row) : Word := if row.pattern = 0x9000 then row.ignored else 0

theorem and_not_zero_or_zero (w : Word) : w &&& ~~~0 ||| 0 = w := by
  exact BitVec.or_zero.trans BitVec.and_allOnes

/-- The word of a decoded instruction is the word itself with the ignored bits of its row filled. -/
theorem encode_decode (w : Word) :
    encode (decode w) = w &&& ~~~(decode w).row.ignored ||| (decode w).row.filler := by
  unfold decode
  cases hop : opcodeOf (bits w 15 12) with
  | br =>
    refine Eq.trans ?_ (and_not_zero_or_zero w).symm
    rw [encode, field_sext16 (by decide)]
    exact concat_br (bits_opcode hop)
  | ld | st | ldi | sti | lea =>
    refine Eq.trans ?_ (and_not_zero_or_zero w).symm
    rw [encode, field_sext16 (by decide)]
    exact concat_off9 (bits_opcode hop)
  | ldr | str =>
    refine Eq.trans ?_ (and_not_zero_or_zero w).symm
    rw [encode, field_sext16 (by decide)]
    exact concat_off6 (bits_opcode hop)
  | rti | res => exact (BitVec.or_zero.trans (and_not_0FFF (bits_opcode hop))).symm
  | not =>
    show _ = w &&& ~~~0x003F ||| 0x003F
    rw [and_not_003F (bits_opcode hop)]
    show _ = _ ||| (0#4 ++ 0#3 ++ 0#3 ++ BitVec.allOnes 6)
    iterate 3 rw [BitVec.or_append]
    simp only [BitVec.or_zero, BitVec.zero_or]
    rfl
  | jmp => exact (BitVec.or_zero.trans (and_not_0E3F (bits_opcode hop))).symm
  | trap => exact (BitVec.or_zero.trans (and_not_0F00 (bits_opcode hop))).symm
  | add | and =>
    cases hbit : bit w 5 with
    | false => exact (BitVec.or_zero.trans (and_not_0018 (b := false) (bits_opcode hop) hbit)).symm
    | true =>
      refine Eq.trans ?_ (and_not_zero_or_zero w).symm
      simp only [if_true, encode]
      rw [field_sext16 (by decide)]
      exact concat_imm5 (b := true) (bits_opcode hop) hbit
  | jsr =>
    cases hbit : bit w 11 with
    | false => exact (BitVec.or_zero.trans (and_not_063F (b := false) (bits_opcode hop) hbit)).symm
    | true =>
      refine Eq.trans ?_ (and_not_zero_or_zero w).symm
      simp only [if_true, encode]
      rw [field_sext16 (by decide)]
      exact concat_off11 (b := true) (bits_opcode hop) hbit

/-- The filler of a row lies in its ignored bits. -/
theorem Row.filler_and_not_ignored (row : Row) : row.filler &&& ~~~row.ignored = 0 := by
  unfold Row.filler
  split
  · exact BitVec.and_not_self _
  · exact BitVec.zero_and

/-- Settles O10: the filler of `encode_decode` stands in ignored bits only, and the row is that of the decoded
instruction. -/
theorem encodeOfDecodeKeepsEveryNamedBit : Obligations.EncodeOfDecodeKeepsEveryNamedBit := by
  unfold Obligations.EncodeOfDecodeKeepsEveryNamedBit
  refine fun w => ⟨decode_wf w, fun row hmem h => ?_⟩
  rw [encode_decode, ← Row.eq_decode_row hmem h, BitVec.and_or_distrib_right, Row.filler_and_not_ignored,
    BitVec.and_assoc, BitVec.and_self]
  exact BitVec.or_zero

/-- No row fixes an ignored bit. -/
theorem opcodeTable_ignored_and_mask : ∀ row ∈ opcodeTable, row.ignored &&& row.mask = 0 := by decide

/-- A change within `m` is not seen through a mask that shares no bit with `m`. -/
theorem xor_and_and_of_disjoint (w x : Word) {m n : Word} (h : m &&& n = 0) : (w ^^^ x &&& m) &&& n = w &&& n := by
  ext i hi
  have hbit : (m[i] && n[i]) = false := by
    rw [← BitVec.getElem_and, h]
    exact BitVec.getElem_zero hi
  simp only [BitVec.getElem_and, BitVec.getElem_xor]
  cases hn : n[i] with
  | false => simp
  | true => simp [show m[i] = false by simpa [hn] using hbit]

/-- Settles O12: the changed word matches the same row, so by `encode_decode` the two instructions have the same
word, and each is what its word decodes to (O9). -/
theorem ignoredBitsHaveNoEffect : Obligations.IgnoredBitsHaveNoEffect := by
  unfold Obligations.IgnoredBitsHaveNoEffect
  intro row hmem w x h
  have h' : row.matches (w ^^^ (x &&& row.ignored)) = true := by
    rw [Row.matches_iff, xor_and_and_of_disjoint w x (opcodeTable_ignored_and_mask row hmem)]
    exact (Row.matches_iff row w).mp h
  have hword : encode (decode (w ^^^ (x &&& row.ignored))) = encode (decode w) := by
    rw [encode_decode, encode_decode, ← Row.eq_decode_row hmem h, ← Row.eq_decode_row hmem h',
      xor_and_and_of_disjoint w x (BitVec.and_not_self _)]
  rw [← decodeOfEncodeIsTheInstruction _ (decode_wf (w ^^^ (x &&& row.ignored))), hword,
    decodeOfEncodeIsTheInstruction _ (decode_wf w)]

end Sys2Proof
end

section
/-! PROOFS. Memory as data: the launch state, that memories which read alike are equal, and that no cycle leaves the
canonical form (20_memory section 1; 70_reset_and_hazards R181; log 1). -/

namespace Sys2Proof.Machine

/-! ### The launch state -/

theorem State.load_cons (s : State) (c : Word × Word) (image : List (Word × Word)) :
    s.load (c :: image) = (s.write c.1 c.2).load image := rfl

@[simp] theorem State.load_reg (s : State) (image : List (Word × Word)) (r : RegIdx) :
    (s.load image).reg r = s.reg r := by
  induction image generalizing s with
  | nil => rfl
  | cons c image ih => rw [s.load_cons, ih, s.write_reg]

@[simp] theorem State.load_pc (s : State) (image : List (Word × Word)) : (s.load image).pc = s.pc := by
  induction image generalizing s with
  | nil => rfl
  | cons c image ih => rw [s.load_cons, ih, s.write_pc]

@[simp] theorem State.load_cond (s : State) (image : List (Word × Word)) : (s.load image).cond = s.cond := by
  induction image generalizing s with
  | nil => rfl
  | cons c image ih => rw [s.load_cons, ih, s.write_cond]

theorem State.read_write (s : State) (a b v : Word) : (s.write a v).read b = if a = b then v else s.read b := by
  split
  · next h => rw [← h, s.read_write_same]
  · next h => exact s.read_write_ne v (Ne.symm h)

/-- After a load a word is the last one the image has for its address, or what it was (70_reset_and_hazards R181). -/
theorem State.load_read (s : State) (image : List (Word × Word)) (a : Word) :
    (s.load image).read a = image.foldl (fun w c => if c.1 = a then c.2 else w) (s.read a) := by
  induction image generalizing s with
  | nil => rfl
  | cons c image ih => rw [s.load_cons, ih, s.read_write, List.foldl_cons]

/-- Settles O2: the load leaves the creation state's registers, PC and COND, and memory is folded over it
(`State.load_read`). -/
theorem launchStateIsCreationPlusImage : Obligations.LaunchStateIsCreationPlusImage := by
  unfold Obligations.LaunchStateIsCreationPlusImage launch create
  refine fun c image => ⟨fun r => ?_, ?_, ?_, fun a => ?_⟩
  · rw [State.load_reg, State.install_reg, State.reset_reg]
  · rw [State.load_pc, State.install_pc, State.reset_pc]
  · rw [State.load_cond, State.install_cond, State.reset_cond]
  · rw [State.load_read, State.install_read, State.reset_read]

/-! ### The canonical form -/

/-- An address that is not listed reads as the empty word. -/
theorem Memory.get_of_forall_ne {m : Memory} {a : Nat} (h : ∀ c ∈ m, c.1 ≠ a) : Memory.get m a = Config.emptyWord := by
  induction m with
  | nil => rfl
  | cons c m ih =>
    obtain ⟨hc, hm⟩ := List.forall_mem_cons.mp h
    rw [Memory.get, if_neg hc, ih hm]

/-- In canonical form a memory lists exactly the words that do not read as the empty one. -/
theorem Memory.mem_iff_of_wf {m : Memory} (h : Memory.wf m = true) (c : Nat × Word) :
    c ∈ m ↔ Memory.get m c.1 = c.2 ∧ c.2 ≠ Config.emptyWord := by
  obtain ⟨hrise, hword⟩ := (Memory.wf_iff m).mp h
  clear h
  induction m with
  | nil => simpa [Memory.get] using fun h => h.symm
  | cons d m ih =>
    obtain ⟨k, v⟩ := d
    obtain ⟨hlt, hrise⟩ := List.pairwise_cons.mp hrise
    obtain ⟨⟨-, hv⟩, hword⟩ := List.forall_mem_cons.mp hword
    obtain ⟨a, w⟩ := c
    rw [List.mem_cons, Memory.get, Prod.mk.injEq]
    by_cases hk : k = a
    · subst hk
      have hnotMem : (k, w) ∉ m := fun hmem => (hlt _ hmem).false
      simp only [hnotMem, or_false, true_and, if_true]
      exact ⟨fun hw => ⟨hw.symm, hw ▸ hv⟩, fun hw => hw.1.symm⟩
    · simp only [Ne.symm hk, hk, false_and, false_or, if_false, ih hrise hword]

/-- In canonical form no key from 65536 on is listed. -/
theorem Memory.get_of_wf_of_le {m : Memory} (h : Memory.wf m = true) {k : Nat} (hk : 65536 ≤ k) :
    Memory.get m k = Config.emptyWord := by
  refine Memory.get_of_forall_ne fun c hc => ?_
  have hc : c.1 < 65536 := (((Memory.wf_iff m).mp h).2 c hc).1
  omega

/-- Memories in canonical form that read alike at the 65536 addresses read alike under every key. -/
theorem Memory.get_eq_of_read_eq {m m' : Memory} (h : Memory.wf m = true) (h' : Memory.wf m' = true)
    (hread : ∀ a : Word, Memory.read m a = Memory.read m' a) (k : Nat) : Memory.get m k = Memory.get m' k := by
  rcases Nat.lt_or_ge k 65536 with hk | hk
  · have hkey : (BitVec.ofNat 16 k).toNat = k := Nat.mod_eq_of_lt hk
    simpa only [Memory.read, hkey] using hread (BitVec.ofNat 16 k)
  · rw [Memory.get_of_wf_of_le h hk, Memory.get_of_wf_of_le h' hk]

/-- Settles O6: both list the same words (`Memory.mem_iff_of_wf`), and rising addresses leave one order only. -/
theorem memoriesThatReadAlikeAreEqual : Obligations.MemoriesThatReadAlikeAreEqual := by
  unfold Obligations.MemoriesThatReadAlikeAreEqual
  intro m m' h h' hread
  have : Std.Irrefl fun c d : Nat × Word => c.1 < d.1 := ⟨fun c => lt_irrefl c.1⟩
  have : Std.Antisymm fun c d : Nat × Word => c.1 < d.1 := ⟨fun c d hcd hdc => absurd hcd hdc.asymm⟩
  refine List.Pairwise.eq_of_mem_iff ((Memory.wf_iff m).mp h).1 ((Memory.wf_iff m').mp h').1 fun c => ?_
  rw [Memory.mem_iff_of_wf h, Memory.mem_iff_of_wf h', Memory.get_eq_of_read_eq h h' hread]

/-! ### The invariant -/

/-- Settles O3: the empty memory is in canonical form. -/
theorem resetMeetsTheInvariant : Obligations.ResetMeetsTheInvariant := Memory.wf_nil

@[simp] theorem handedOver_mem (i : Instr) (s : State) : (handedOver i s).mem = s.mem := by
  unfold handedOver
  split <;> rfl

/-- A handler keeps the canonical form: it writes memory as a store or through the collaborator's pokes. -/
theorem exec_inv {i : Instr} {s t : State} {o : CycleOutcome} (hs : s.Inv) (h : report (exec i s) = some (o, t)) :
    t.Inv := by
  obtain ⟨d, v, -, -, -, -, rfl⟩ | ⟨ea, sr, -, -, -, -, -, -, rfl⟩ | ⟨v, -, -, -, -, -, -, rfl⟩ |
    ⟨v, -, -, -, -, -, -, rfl⟩ | ⟨-, -, -, -, -, rfl⟩ | ⟨r, -, -, -, -, rfl⟩ := exec_cases h
  · exact hs
  · exact Memory.wf_write hs ea _
  · exact hs
  · exact hs
  · exact State.pokes_wf _ _ ((handedOver_mem i s).symm ▸ hs)
  · exact hs

/-- Settles O4: fetch and increment touch no memory, and the handler keeps its form (`exec_inv`). -/
theorem everyCycleKeepsTheInvariant : Obligations.EveryCycleKeepsTheInvariant := by
  unfold Obligations.EveryCycleKeepsTheInvariant
  exact fun s hs o t h => exec_inv (s := s.advance) hs h

end Sys2Proof.Machine
end

section
/-! PROOFS. The outcomes of a cycle: which instruction can return which, what a fault leaves, and which words raise
PrivilegedInstruction (40_cycle R93, R95; 60_exceptions R152). -/

namespace Sys2Proof.Machine

/-- Every handler but those of RES, RTI and TRAP answers a next state. -/
theorem exec_next {i : Instr} (hres : i ≠ .res) (hrti : i ≠ .rti) (htrap : ∀ v, i ≠ .trap v) (s : State) :
    ∃ t, exec i s = .next t := by
  cases i with
  | addReg | addImm | andReg | andImm | notReg | ld | ldi | ldr | lea => exact ⟨_, rfl⟩
  | st | sti | str | br | jmp | jsr | jsrr => exact ⟨_, rfl⟩
  | res => exact absurd rfl hres
  | rti => exact absurd rfl hrti
  | trap v => exact absurd rfl (htrap v)

theorem exec_res (s : State) : exec .res s = .fault (.illegalOpcode s) := rfl

/-- A dispatch continues, halts, or has no outcome (60_exceptions R162, R165). -/
theorem finish_outcomes (a : Answer) (s : State) :
    (∃ t, finish a s = .next t) ∨ (∃ t, finish a s = .fault (.halted t)) ∨
      finish a s = .fault .collaboratorSilent := by
  obtain ⟨ps, -, h⟩ | ⟨ps, -, h⟩ | ⟨-, h⟩ := finish_cases a s
  · exact .inl ⟨_, h⟩
  · exact .inr (.inl ⟨_, h⟩)
  · exact .inr (.inr h)

/-- Settles O15: `exec_next` for the handlers that continue, the faults of RES, RTI and TRAP, and `finish_outcomes`
for what is dispatched. -/
theorem outcomesOfEachInstruction : Obligations.OutcomesOfEachInstruction := by
  rintro s i rfl
  have hstep : step s = exec (decode s.fetch) s.advance := rfl
  rw [hstep]
  generalize decode s.fetch = i
  refine ⟨fun hres hrti htrap => exec_next hres hrti htrap s.advance, ?_, ?_, ?_, ?_, ?_⟩
  · rintro rfl
    exact ⟨s.advance, exec_res s.advance⟩
  · rintro ⟨v, rfl⟩ habsent
    exact ⟨s.advance, exec_trap_fault (s := s.advance) habsent v⟩
  · rintro ⟨v, rfl⟩ hpresent
    rw [exec_trap_dispatch (s := s.advance) hpresent v]
    exact finish_outcomes _ _
  · rintro rfl habsent
    exact ⟨s.advance, exec_rti_fault (s := s.advance) habsent⟩
  · rintro rfl hpresent
    rw [exec_rti_dispatch (s := s.advance) hpresent]
    exact finish_outcomes _ _

/-- A handler that faults leaves the state as it found it (60_exceptions R156). -/
theorem exec_fault_state {i : Instr} {s t : State} {r : Reason} (h : report (exec i s) = some (.fault r, t)) :
    t = s := by
  obtain ⟨-, rfl⟩ | ⟨-, rfl, habsent⟩ | ⟨-, ⟨v, rfl⟩, habsent⟩ := exec_fault_cases h
  · cases h; rfl
  · rw [exec_rti_fault habsent] at h; cases h; rfl
  · rw [exec_trap_fault habsent] at h; cases h; rfl

/-- Settles O16: the handler that faults starts with the PC incremented and changes nothing (`exec_fault_state`). -/
theorem faultingCycleChangesOnlyThePc : Obligations.FaultingCycleChangesOnlyThePc := by
  unfold Obligations.FaultingCycleChangesOnlyThePc
  exact fun s t r h => exec_fault_state (s := s.advance) h

/-- RTI and TRAP without their collaborator raise PrivilegedInstruction, and nothing else does (60_exceptions R152). -/
theorem exec_privileged_iff (i : Instr) (s : State) :
    (∃ t, report (exec i s) = some (.fault .privilegedInstruction, t)) ↔
      (i = .rti ∧ s.supPresent = false) ∨ ((∃ v, i = .trap v) ∧ s.trapPresent = false) := by
  constructor
  · rintro ⟨t, h⟩
    obtain ⟨hr, -⟩ | ⟨-, hrti⟩ | ⟨-, htrap⟩ := exec_fault_cases h
    · cases hr
    · exact .inl hrti
    · exact .inr htrap
  · rintro (⟨rfl, habsent⟩ | ⟨⟨v, rfl⟩, habsent⟩)
    · exact ⟨s, congrArg report (exec_rti_fault habsent)⟩
    · exact ⟨s, congrArg report (exec_trap_fault habsent v)⟩

end Sys2Proof.Machine

namespace Sys2Proof

/-- Each opcode decodes to instructions of its own, RTI among them (30_encoding R61). -/
theorem decode_eq_rti_iff_opcodeOf (w : Word) : decode w = .rti ↔ opcodeOf (bits w 15 12) = .rti := by
  unfold decode
  cases opcodeOf (bits w 15 12) with
  | add | jsr | and => dsimp only; split <;> simp
  | rti => simp
  | br | ld | st | ldr | str | res | not | ldi | sti | jmp | lea | trap => simp

/-- The words that decode to RTI, by number (30_encoding R62). -/
theorem decode_eq_rti_iff (w : Word) : decode w = .rti ↔ 0x8000 ≤ w.toNat ∧ w.toNat ≤ 0x8FFF := by
  have hw := w.isLt
  have hcode : (Opcode.code .rti).toNat = 8 := rfl
  rw [decode_eq_rti_iff_opcodeOf, opcodeOf_eq_iff, BitVec.toNat_eq, toNat_bits, hcode]
  omega

/-- Each opcode decodes to instructions of its own, TRAP among them (30_encoding R61). -/
theorem decode_eq_trap_iff_opcodeOf (w : Word) : (∃ v, decode w = .trap v) ↔ opcodeOf (bits w 15 12) = .trap := by
  unfold decode
  cases opcodeOf (bits w 15 12) with
  | add | jsr | and => dsimp only; split <;> simp
  | trap => simp
  | br | ld | st | ldr | str | rti | res | not | ldi | sti | jmp | lea => simp

/-- The words that decode to a TRAP, by number (30_encoding R62). -/
theorem decode_eq_trap_iff (w : Word) : (∃ v, decode w = .trap v) ↔ 0xF000 ≤ w.toNat := by
  have hw := w.isLt
  have hcode : (Opcode.code .trap).toNat = 15 := rfl
  rw [decode_eq_trap_iff_opcodeOf, opcodeOf_eq_iff, BitVec.toNat_eq, toNat_bits, hcode]
  omega

end Sys2Proof

namespace Sys2Proof.Machine

/-- Settles O18: the two instructions of `exec_privileged_iff` by the numbers of their words. -/
theorem privilegedExactlyWithoutACollaborator : Obligations.PrivilegedExactlyWithoutACollaborator := by
  unfold Obligations.PrivilegedExactlyWithoutACollaborator
  intro s
  rw [show step s = exec (decode s.fetch) s.advance from rfl, exec_privileged_iff, decode_eq_rti_iff,
    decode_eq_trap_iff, and_assoc, s.advance_supPresent, s.advance_trapPresent]

end Sys2Proof.Machine
end

section
/-! PROOFS. What a cycle leaves unchanged: the configuration, the registers and memory words no field names, and what is
assumed of the collaborators (10_state sections 2 and 7; 20_memory section 7; 60_exceptions section 5). -/

namespace Sys2Proof.Machine

/-! ### The machine as it is handed over -/

theorem handedOver_read (i : Instr) (s : State) (a : Word) : (handedOver i s).read a = s.read a :=
  congrArg (Memory.read · a) (handedOver_mem i s)

theorem handedOver_reg {i : Instr} {r : RegIdx} (h : i.links = true → r ≠ 7) (s : State) :
    (handedOver i s).reg r = s.reg r := by
  unfold handedOver
  split
  · next hlinks => exact s.linkPc_reg_ne (h hlinks)
  · rfl

/-- A dispatch keeps the install flags, and each collaborator but for the dispatch it has had. -/
theorem handedOver_config (i : Instr) (s : State) :
    SameFlags s (handedOver i s) ∧
    ((handedOver i s).trapFeed = s.trapFeed ∨ (handedOver i s).trapFeed = s.trapFeed.next) ∧
    ((handedOver i s).supFeed = s.supFeed ∨ (handedOver i s).supFeed = s.supFeed.next) := by
  unfold handedOver
  split
  · exact ⟨⟨rfl, rfl⟩, .inr rfl, .inl rfl⟩
  · exact ⟨⟨rfl, rfl⟩, .inl rfl, .inr rfl⟩

/-! ### The frames of a handler -/

/-- A handler keeps the install flags, and each collaborator but for the dispatch it may have had. -/
theorem exec_config {i : Instr} {s t : State} {o : CycleOutcome} (h : report (exec i s) = some (o, t)) :
    SameFlags s t ∧ (t.trapFeed = s.trapFeed ∨ t.trapFeed = s.trapFeed.next) ∧
      (t.supFeed = s.supFeed ∨ t.supFeed = s.supFeed.next) := by
  obtain ⟨d, v, -, -, -, -, rfl⟩ | ⟨ea, sr, -, -, -, -, -, -, rfl⟩ | ⟨v, -, -, -, -, -, -, rfl⟩ |
    ⟨v, -, -, -, -, -, -, rfl⟩ | ⟨-, -, -, -, -, rfl⟩ | ⟨r, -, -, -, -, rfl⟩ := exec_cases h
  · exact ⟨⟨rfl, rfl⟩, .inl rfl, .inl rfl⟩
  · exact ⟨⟨rfl, rfl⟩, .inl rfl, .inl rfl⟩
  · exact ⟨⟨rfl, rfl⟩, .inl rfl, .inl rfl⟩
  · exact ⟨⟨rfl, rfl⟩, .inl rfl, .inl rfl⟩
  · obtain ⟨htrap, hsup, htrapFeed, hsupFeed⟩ := (handedOver i s).pokes_instance (i.changes s)
    unfold SameFlags
    rw [htrap, hsup, htrapFeed, hsupFeed]
    exact handedOver_config i s
  · exact ⟨⟨rfl, rfl⟩, .inl rfl, .inl rfl⟩

/-- Settles O27: from `exec_config`. -/
theorem noCycleChangesTheInstallFlags : Obligations.NoCycleChangesTheInstallFlags := by
  unfold Obligations.NoCycleChangesTheInstallFlags
  exact fun s t o h => (exec_config (s := s.advance) h).1

/-- A collaborator that is as it was, or one dispatch further, still obeys its relation. -/
theorem Feed.Obeys.of_eq_or_next {f g : Feed} {relation : Call → Snapshot → Answer → Prop} (h : f.Obeys relation)
    (hg : g = f ∨ g = f.next) : g.Obeys relation := by
  obtain rfl | rfl := hg
  · exact h
  · exact h.next

/-- Settles O57: a cycle leaves each collaborator as it was or one dispatch further (`exec_config`). -/
theorem everyCycleKeepsTheAssumedRelations : Obligations.EveryCycleKeepsTheAssumedRelations := by
  unfold Obligations.EveryCycleKeepsTheAssumedRelations
  intro trapRelation supRelation s t o htrap hsup h
  obtain ⟨-, htrapFeed, hsupFeed⟩ := exec_config (s := s.advance) h
  exact ⟨htrap.of_eq_or_next htrapFeed, hsup.of_eq_or_next hsupFeed⟩

/-- A handler changes no register but the destination, the link, and those the collaborator writes (10_state
section 2). -/
theorem exec_reg_frame {i : Instr} {s t : State} {o : CycleOutcome} {r : RegIdx}
    (h : report (exec i s) = some (o, t)) (hres : i.resultReg ≠ some r) (hlink : i.links = true → r ≠ 7)
    (hpoke : ∀ v, Poke.reg r v ∉ i.changes s) : t.reg r = s.reg r := by
  obtain ⟨d, v, hd, -, -, -, rfl⟩ | ⟨ea, sr, -, -, -, -, -, -, rfl⟩ | ⟨v, -, -, -, -, -, -, rfl⟩ |
    ⟨v, -, -, -, hlinks, -, -, rfl⟩ | ⟨-, -, -, -, -, rfl⟩ | ⟨r, -, -, -, -, rfl⟩ := exec_cases h
  · exact s.writeResult_reg_ne v fun hrd => hres (hrd ▸ hd)
  · exact s.write_reg ea _ r
  · exact s.setPc_reg v r
  · exact s.linkPc_reg_ne (hlink hlinks)
  · rw [State.pokes_reg _ _ hpoke, handedOver_reg hlink]
  · rfl

/-- Settles O23: from `exec_reg_frame`. -/
theorem onlyNamedRegistersAreWritten : Obligations.OnlyNamedRegistersAreWritten := by
  unfold Obligations.OnlyNamedRegistersAreWritten
  exact fun s t o h r => exec_reg_frame (s := s.advance) h

/-- A handler changes no memory word but the one a store's address names and those the collaborator writes (20_memory
section 7). -/
theorem exec_read_frame {i : Instr} {s t : State} {o : CycleOutcome} {a : Word}
    (h : report (exec i s) = some (o, t)) (hstore : i.storeAddress s ≠ some a)
    (hpoke : ∀ v, Poke.mem a v ∉ i.changes s) : t.read a = s.read a := by
  obtain ⟨d, v, -, -, -, -, rfl⟩ | ⟨ea, sr, hea, -, -, -, -, -, rfl⟩ | ⟨v, -, -, -, -, -, -, rfl⟩ |
    ⟨v, -, -, -, -, -, -, rfl⟩ | ⟨-, -, -, -, -, rfl⟩ | ⟨r, -, -, -, -, rfl⟩ := exec_cases h
  · exact s.writeResult_read d v a
  · exact s.read_write_ne _ fun hae => hstore (hae ▸ hea)
  · exact s.setPc_read v a
  · exact (s.linkPc.setPc_read v a).trans (s.linkPc_read a)
  · rw [State.pokes_read _ _ hpoke, handedOver_read]
  · rfl

/-- Settles O24: from `exec_read_frame`. -/
theorem onlyTheStoreAddressIsWritten : Obligations.OnlyTheStoreAddressIsWritten := by
  unfold Obligations.OnlyTheStoreAddressIsWritten
  exact fun s t o h a => exec_read_frame (s := s.advance) h

end Sys2Proof.Machine
end

section
/-! PROOFS. Cycles in sequence: the fetch after a store, a run over zeroed memory, and LEA, ST and LD of one address
(20_memory R54; 30_encoding R80; 43_load R123). -/

namespace Sys2Proof.Machine

/-- A cycle of a store writes SR to the store's address and leaves the PC incremented. -/
theorem step_store {s : State} {ea : Word} {sr : RegIdx} (ha : (decode s.fetch).storeAddress s.advance = some ea)
    (hr : (decode s.fetch).storeReg = some sr) : step s = .next (s.advance.write ea (s.reg sr)) := exec_store ha hr

/-- Settles O25: the next fetch reads the memory the store has written (`State.read_write`). -/
theorem storeIsSeenByTheNextFetch : Obligations.StoreIsSeenByTheNextFetch := by
  unfold Obligations.StoreIsSeenByTheNextFetch
  intro s ea sr ha hr
  refine ⟨_, step_store ha hr, rfl, ?_⟩
  have hfetch : (s.advance.write ea (s.reg sr)).fetch = if ea = s.pc + 1 then s.reg sr else s.read (s.pc + 1) :=
    s.advance.read_write ea (s.pc + 1) (s.reg sr)
  have hpc : s.pc + 1 + 1 = s.pc + 2 := BitVec.add_assoc s.pc 1 1
  rw [step, hfetch, State.advance, State.write_pc, s.advance_pc, hpc]

/-- The word 0 is a BR that names no flag: a cycle of it only moves the PC (30_encoding R80). -/
theorem step_of_fetch_zero {s : State} (h : s.fetch = 0) : step s = .next s.advance := by
  have hdecode : decode 0 = .br false false false 0 := by decide
  have hnot : branchTaken false false false s.advance.cond = false := by simp [branchTaken, condMask]
  rw [step, h, hdecode, exec_br, hnot]
  rfl

/-- Settles O29: by induction on the cycles; the next one fetches 0 again and moves the PC once more. -/
theorem zeroedMemoryOnlyAdvancesThePc : Obligations.ZeroedMemoryOnlyAdvancesThePc := by
  unfold Obligations.ZeroedMemoryOnlyAdvancesThePc
  intro k s hzero
  induction k with
  | zero => simp
  | succ k ih =>
    have hfetch : State.fetch { s with pc := s.pc + BitVec.ofNat 16 k } = 0 := hzero _
    rw [runLoop_succ_of_next ih, step_of_fetch_zero hfetch, BitVec.ofNat_add, ← BitVec.add_assoc]
    rfl

/-- A cycle of LD writes the word at its address to DR. -/
theorem step_ld {s : State} {dr : RegIdx} {off : Word} (h : decode s.fetch = .ld dr off) :
    step s = .next (s.advance.writeResult dr (s.read (s.pc + 1 + off))) := by
  rw [step, h, exec_ld]; rfl

/-- A cycle of ST writes SR to its address. -/
theorem step_st {s : State} {sr : RegIdx} {off : Word} (h : decode s.fetch = .st sr off) :
    step s = .next (s.advance.write (s.pc + 1 + off) (s.reg sr)) :=
  step_store (by rw [h]; rfl) (by rw [h]; rfl)

/-- Settles O50: LD reads the address ST has written, whatever instruction left that address in the register. -/
theorem leaThenStThenLdYieldsTheValue : Obligations.LeaThenStThenLdYieldsTheValue := by
  unfold Obligations.LeaThenStThenLdYieldsTheValue
  intro s t u d sr e off off' off'' _ _ hst hstAddr hstep hld hldAddr
  rw [step_st hst, hstAddr] at hstep
  cases hstep
  have hread : (t.advance.write (t.reg d) (t.reg sr)).read (t.reg d) = t.reg sr := State.read_write_same _ _ _
  refine ⟨_, step_ld hld, ?_, ?_⟩
  · rw [hldAddr, State.writeResult_reg_same, hread]
  · rw [hldAddr, State.writeResult_cond, hread]

end Sys2Proof.Machine
end
section
/-! PROOFS. Pokes and peeks: the last poke of a place stands, and no other place changes (70_reset_and_hazards R184;
decisions D8 and D13). -/

namespace Sys2Proof.Machine

/-- Pokes and one more are that one after the others. -/
theorem State.pokes_concat (s : State) (ps : List Poke) (q : Poke) : s.pokes (ps ++ [q]) = (s.pokes ps).poke q :=
  s.pokes_append ps [q]

/-- No list of pokes changes the configuration or a collaborator. -/
theorem State.sameInstance_pokes (s : State) (ps : List Poke) : SameInstance s (s.pokes ps) := by
  obtain ⟨htrap, hsup, htrapFeed, hsupFeed⟩ := s.pokes_instance ps
  exact ⟨⟨htrap, hsup⟩, htrapFeed, hsupFeed⟩

/-- Settles O58: the last poke is one update of the state the others leave, whose frame is known; the configuration is
that of the start (`State.sameInstance_pokes`). -/
theorem pokesWriteTheirPlaceOnly : Obligations.PokesWriteTheirPlaceOnly := by
  unfold Obligations.PokesWriteTheirPlaceOnly
  intro s ps q
  have hconfig := s.sameInstance_pokes (ps ++ [q])
  rw [State.pokes_concat] at hconfig ⊢
  generalize s.pokes ps = t at hconfig ⊢
  cases q with
  | reg r v =>
    exact ⟨t.setReg_reg_same r v, fun _ hne => t.setReg_reg_ne v hne, t.setReg_pc r v, t.setReg_cond r v,
      t.setReg_read r v, hconfig⟩
  | pc v => exact ⟨t.jumpsTo_setPc v, hconfig⟩
  | cond c => exact ⟨t.setCond_cond c, t.setCond_reg c, t.setCond_pc c, t.setCond_read c, hconfig⟩
  | mem a v => exact ⟨t.storesWord_write a v, hconfig⟩

/-- A poke leaves in its place what a peek then shows. -/
theorem State.peek_poke_place (s : State) (q : Poke) : (s.poke q).peek q.place = q.shown := by
  cases q with
  | reg r v => exact congrArg Shown.word (s.setReg_reg_same r v)
  | pc v => rfl
  | cond c => rfl
  | mem a v => exact congrArg Shown.word (s.read_write_same a v)

/-- A poke changes what no other place shows. -/
theorem State.peek_poke_ne (s : State) {q : Poke} {p : Place} (h : p ≠ q.place) : (s.poke q).peek p = s.peek p := by
  cases q with
  | reg r v =>
    cases p with
    | reg d => exact congrArg Shown.word (s.setReg_reg_ne v fun hd => h (congrArg Place.reg hd))
    | pc | cond | mem => rfl
  | pc v =>
    cases p with
    | pc => exact absurd rfl h
    | reg | cond | mem => rfl
  | cond c =>
    cases p with
    | cond => exact absurd rfl h
    | reg | pc | mem => rfl
  | mem a v =>
    cases p with
    | mem b => exact congrArg Shown.word (s.read_write_ne v fun hb => h (congrArg Place.mem hb))
    | reg | pc | cond => rfl

/-- Settles O59: the last poke shows in its place and in no other. -/
theorem peekShowsWhatWasPoked : Obligations.PeekShowsWhatWasPoked := by
  unfold Obligations.PeekShowsWhatWasPoked
  intro s ps q
  rw [State.pokes_concat]
  exact ⟨State.peek_poke_place _ q, fun p => State.peek_poke_ne _⟩

end Sys2Proof.Machine
end

section
/-! PROOFS. Forms of single instructions: NOT twice, BR to itself, JSRR, LEA and RES (41_alu R106; 42_control R110, R113;
43_load R123; 45_system R142). -/

namespace Sys2Proof.Machine

/-- Settles O36: the second complement undoes the first. -/
theorem notTwiceRestoresTheValue : Obligations.NotTwiceRestoresTheValue := by
  unfold Obligations.NotTwiceRestoresTheValue
  intro d e sr s
  have hvalue : ~~~ (s.writeResult d (~~~ s.reg sr)).reg d = s.reg sr := by
    rw [s.writeResult_reg_same, BitVec.not_not]
  refine ⟨_, _, exec_notReg d sr s, exec_notReg e d _, ?_, ?_⟩
  · rw [State.writeResult_reg_same, hvalue]
  · rw [State.writeResult_cond, hvalue]

/-- Settles O38: the offset -1 takes back the increment of the PC. -/
theorem takenBrToItselfRepeats : Obligations.TakenBrToItselfRepeats := by
  unfold Obligations.TakenBrToItselfRepeats
  intro s n z p hdecode htaken
  have hbranch : branchTaken n z p s.advance.cond = true := (branchTaken_iff n z p s.cond).mpr htaken
  have hpc : s.pc + 1 + 0xFFFF = s.pc := by
    rw [BitVec.add_assoc]
    exact BitVec.add_zero s.pc
  rw [step, hdecode, exec_br, if_pos hbranch, s.advance_pc, hpc]
  rfl

/-- After a link R7 holds the PC, and any other register what it held (10_state R24). -/
theorem State.linkPc_reg (s : State) (r : RegIdx) : s.linkPc.reg r = if r = 7 then s.pc else s.reg r := by
  split
  · next h => rw [h]; exact s.linkPc_reg_link
  · next h => exact s.linkPc_reg_ne h

theorem exec_jsrr (base : RegIdx) (s : State) :
    exec (.jsrr base) s = .next (s.linkPc.setPc (s.linkPc.reg base)) := rfl

/-- Settles O41: the decoded form, and the link followed by the write of the base register, read after the link, to the
PC. -/
theorem jsrrForm : Obligations.JsrrForm := by
  unfold Obligations.JsrrForm
  intro x base y s
  rw [← s.linkPc_reg base]
  exact ⟨decode_jsrr base x y, _, exec_jsrr base s, s.callsTo_linkPc_setPc _⟩

theorem exec_lea (dr : RegIdx) (off : Word) (s : State) :
    exec (.lea dr off) s = .next (s.writeResult dr (s.pc + off)) := rfl

/-- Settles O46: the decoded form, and the destination write of the address itself. -/
theorem leaForm : Obligations.LeaForm := by
  unfold Obligations.LeaForm
  exact fun dr off9 s => ⟨decode_lea dr off9, _, exec_lea dr (sext16 off9) s, s.writesResult_writeResult dr _⟩

/-- Settles O51: the decoded form, and the handler that faults with the state as it is. -/
theorem resForm : Obligations.ResForm := by
  unfold Obligations.ResForm
  exact fun x s => ⟨decode_res x, exec_res s⟩

end Sys2Proof.Machine
end

section
/-! PROOFS. RTI and TRAP: the fault without a collaborator, the machine that is handed over, and the end of a dispatch
(45_system R140, R141; 60_exceptions R161 to R166). -/

namespace Sys2Proof.Machine

/-! ### The machine handed over -/

/-- A TRAP hands over the machine with the return address in R7, otherwise unchanged; the collaborator has had one more
dispatch (60_exceptions R161, R162). -/
theorem handedOver_trap (vector : BitVec 8) (s : State) :
    (handedOver (.trap vector) s).reg 7 = s.pc ∧ SameRegsBut 7 s (handedOver (.trap vector) s) ∧
    (handedOver (.trap vector) s).pc = s.pc ∧ (handedOver (.trap vector) s).cond = s.cond ∧
    SameMemory s (handedOver (.trap vector) s) ∧ SameFlags s (handedOver (.trap vector) s) ∧
    (handedOver (.trap vector) s).supFeed = s.supFeed ∧
    (handedOver (.trap vector) s).trapFeed = s.trapFeed.next :=
  ⟨s.linkPc_reg_link, fun _ hne => s.linkPc_reg_ne hne, rfl, rfl, s.linkPc_read, ⟨rfl, rfl⟩, rfl, rfl⟩

/-- An RTI hands over the machine as it is; the collaborator has had one more dispatch (45_system R140). -/
theorem handedOver_rti (s : State) :
    SameArch s (handedOver .rti s) ∧ SameFlags s (handedOver .rti s) ∧ (handedOver .rti s).trapFeed = s.trapFeed ∧
    (handedOver .rti s).supFeed = s.supFeed.next :=
  ⟨⟨fun _ => rfl, rfl, rfl, fun _ => rfl⟩, ⟨rfl, rfl⟩, rfl, rfl⟩

/-! ### The dispatch as the end of the collaborator's answer to that machine -/

theorem exec_trap_finish {s : State} (h : s.trapPresent = true) (vector : BitVec 8) :
    exec (.trap vector) s = finish (s.trapFeed.answer (.trap vector) (handedOver (.trap vector) s).snapshot)
      (handedOver (.trap vector) s) := exec_trap_dispatch h vector

theorem exec_rti_finish {s : State} (h : s.supPresent = true) :
    exec .rti s = finish (s.supFeed.answer .rti (handedOver .rti s).snapshot) (handedOver .rti s) :=
  exec_rti_dispatch h

/-- How a dispatch ends, signal by signal (60_exceptions R162, R165). -/
theorem finish_signals {r : Result} {a : Answer} {h : State} (hr : r = finish a h) :
    (∀ ps, a = .complete ps → r = .next (h.pokes ps)) ∧
    (∀ ps, a = .halt ps → r = .fault (.halted (h.pokes ps))) ∧ (a = .silent → report r = none) := by
  subst hr
  refine ⟨?_, ?_, ?_⟩
  · rintro ps rfl; rfl
  · rintro ps rfl; rfl
  · rintro rfl; rfl

/-! ### RTI -/

/-- Settles O52: the decoded form, the fault, and the dispatch of the machine as it is. -/
theorem rtiForm : Obligations.RtiForm := by
  unfold Obligations.RtiForm
  refine fun x s => ⟨decode_rti x, exec_rti_fault, fun hpresent => ?_⟩
  obtain ⟨harch, hflags, htrapFeed, hsupFeed⟩ := handedOver_rti s
  exact ⟨_, harch, hflags, htrapFeed, hsupFeed, finish_signals (exec_rti_finish hpresent)⟩

/-! ### TRAP -/

/-- Settles O53: the decoded form, and the fault before any write. -/
theorem trapWithoutACollaboratorFaults : Obligations.TrapWithoutACollaboratorFaults := by
  unfold Obligations.TrapWithoutACollaboratorFaults
  exact fun x vector s => ⟨decode_trap x vector, fun habsent => exec_trap_fault habsent vector⟩

/-- Settles O54: the machine handed over (`handedOver_trap`), and the end of the dispatch by the signal. -/
theorem trapSavesThePcAndDispatches : Obligations.TrapSavesThePcAndDispatches := by
  unfold Obligations.TrapSavesThePcAndDispatches
  intro vector s hpresent
  obtain ⟨hlink, hregs, hpc, hcond, hmem, hflags, hsupFeed, htrapFeed⟩ := handedOver_trap vector s
  exact ⟨_, hlink, hregs, hpc, hcond, hmem, hflags, hsupFeed, htrapFeed,
    finish_signals (exec_trap_finish hpresent vector)⟩

/-- Settles O55: Complete without a write leaves the machine handed over. -/
theorem trapCompletesWhenTheCollaboratorDoes : Obligations.TrapCompletesWhenTheCollaboratorDoes := by
  unfold Obligations.TrapCompletesWhenTheCollaboratorDoes
  intro vector s hpresent hanswer
  obtain ⟨hcomplete, -, -⟩ := finish_signals (exec_trap_finish hpresent vector)
  exact ⟨_, hcomplete [] hanswer, handedOver_trap vector s⟩

/-- Settles O56: the collaborator's answer to the machine handed over is one the relation gives, and the assumption
goes on to hold after a dispatch (`Feed.Obeys.next`). -/
theorem dispatchFollowsTheAssumedRelation : Obligations.DispatchFollowsTheAssumedRelation := by
  unfold Obligations.DispatchFollowsTheAssumedRelation
  constructor
  · intro relation vector s hpresent hobeys
    obtain ⟨hlink, hregs, hpc, hcond, hmem, hflags, hsupFeed, htrapFeed⟩ := handedOver_trap vector s
    exact ⟨_, _, hobeys.now _ _, exec_trap_finish hpresent vector, hlink, hregs, hpc, hcond, hmem, hflags, hsupFeed,
      htrapFeed ▸ hobeys.next⟩
  · intro relation s hpresent hobeys
    obtain ⟨harch, hflags, htrapFeed, hsupFeed⟩ := handedOver_rti s
    exact ⟨_, _, hobeys.now _ _, exec_rti_finish hpresent, harch, hflags, htrapFeed, hsupFeed ▸ hobeys.next⟩

end Sys2Proof.Machine
end
